-- ==== Sys2Proof/Word.lean ====
section
/-! DEFINITION. The widths of the machine's values (00_scope.md R5): bytes and registers of 8 bits, instruction
words, program counter and index of 16 bits, instruction fields of 4 and 12 bits, register numbers 0 to 15. -/

namespace Sys2Proof

/-- A memory byte, a general register or a timer: 8 bits, unsigned (R5 `XLEN`, R7). -/
abbrev Byte := BitVec 8

/-- An instruction word, `pc`, `index` or a stack entry: 16 bits, unsigned (R5 `ILEN`, `PCLEN`, `IDXLEN`). -/
abbrev Word := BitVec 16

/-- A 4-bit field of an instruction word (R6, R71). -/
abbrev Nibble := BitVec 4

/-- The 12-bit address immediate `nnn` of an instruction word (R71). -/
abbrev Addr12 := BitVec 12

/-- The number of a general register, `V0` to `VF` (R21). -/
abbrev RegNum := Fin 16

/-- A number reduced to a byte (`mod 256` of R7). -/
def byteOfNat (n : Nat) : Byte := BitVec.ofNat 8 n

end Sys2Proof
end

