-- ==== Sys2Proof/Syntax.lean ====
section
/-! DEFINITION. The instructions: one constructor for each of the 34 rows of the opcode map, in the map's order
(30_encoding.md R74). Every field of the word is an argument, the ignored ones of R77 included (`m`, `n` of `cls`,
`ret`, `seReg`, `sneReg`; `y` of `shr`, `shl`), so that no bit of an encoding is lost (assumption log 17). -/

namespace Sys2Proof

/-- An instruction. The mnemonic of its row stands beside each constructor. -/
inductive Instr where
  /-- `CLS`, `00E0`; bits 11 to 8 are not examined (R73 (c)). -/
  | cls (m : Nibble)
  /-- `RET`, `00EE`; bits 11 to 8 are not examined (R73 (c)). -/
  | ret (m : Nibble)
  /-- `JP nnn`, `1nnn`. -/
  | jp (nnn : Addr12)
  /-- `CALL nnn`, `2nnn`. -/
  | call (nnn : Addr12)
  /-- `SE Vx, kk`, `3xkk`. -/
  | seImm (x : RegNum) (kk : Byte)
  /-- `SNE Vx, kk`, `4xkk`. -/
  | sneImm (x : RegNum) (kk : Byte)
  /-- `SE Vx, Vy`, `5xy0`; the low nibble is not examined (R77 (a)). -/
  | seReg (x y : RegNum) (n : Nibble)
  /-- `LD Vx, kk`, `6xkk`. -/
  | ldImm (x : RegNum) (kk : Byte)
  /-- `ADD Vx, kk`, `7xkk`. -/
  | addImm (x : RegNum) (kk : Byte)
  /-- `LD Vx, Vy`, `8xy0`. -/
  | ldReg (x y : RegNum)
  /-- `OR Vx, Vy`, `8xy1`. -/
  | orReg (x y : RegNum)
  /-- `AND Vx, Vy`, `8xy2`. -/
  | andReg (x y : RegNum)
  /-- `XOR Vx, Vy`, `8xy3`. -/
  | xorReg (x y : RegNum)
  /-- `ADD Vx, Vy`, `8xy4`. -/
  | addReg (x y : RegNum)
  /-- `SUB Vx, Vy`, `8xy5`. -/
  | subReg (x y : RegNum)
  /-- `SHR Vx`, `8xy6`; the field `y` is decoded and not used (R77 (c)). -/
  | shr (x y : RegNum)
  /-- `SUBN Vx, Vy`, `8xy7`. -/
  | subnReg (x y : RegNum)
  /-- `SHL Vx`, `8xyE`; the field `y` is decoded and not used (R77 (c)). -/
  | shl (x y : RegNum)
  /-- `SNE Vx, Vy`, `9xy0`; the low nibble is not examined (R77 (a)). -/
  | sneReg (x y : RegNum) (n : Nibble)
  /-- `LD I, nnn`, `Annn`. -/
  | ldI (nnn : Addr12)
  /-- `JP V0, nnn`, `Bnnn`. -/
  | jpV0 (nnn : Addr12)
  /-- `RND Vx, kk`, `Cxkk`. -/
  | rnd (x : RegNum) (kk : Byte)
  /-- `DRW Vx, Vy, n`, `Dxyn`. -/
  | drw (x y : RegNum) (n : Nibble)
  /-- `SKP Vx`, `Ex9E`. -/
  | skp (x : RegNum)
  /-- `SKNP Vx`, `ExA1`. -/
  | sknp (x : RegNum)
  /-- `LD Vx, DT`, `Fx07`. -/
  | ldVxDt (x : RegNum)
  /-- `LD Vx, K`, `Fx0A`. -/
  | ldVxK (x : RegNum)
  /-- `LD DT, Vx`, `Fx15`. -/
  | ldDtVx (x : RegNum)
  /-- `LD ST, Vx`, `Fx18`. -/
  | ldStVx (x : RegNum)
  /-- `ADD I, Vx`, `Fx1E`. -/
  | addI (x : RegNum)
  /-- `LD F, Vx`, `Fx29`. -/
  | ldGlyph (x : RegNum)
  /-- `LD B, Vx`, `Fx33`. -/
  | ldBcd (x : RegNum)
  /-- `LD [I], Vx`, `Fx55`. -/
  | storeRegs (x : RegNum)
  /-- `LD Vx, [I]`, `Fx65`. -/
  | loadRegs (x : RegNum)
  deriving DecidableEq, Repr

end Sys2Proof
end

