-- ==== Sys2Proof/WellFormed.lean ====
section
/-! DEFINITION. Well-formed instructions: those an assembler emits (30_encoding.md R80), which are the canonical
forms of R77. The field types already hold every immediate to its width. A non-canonical instruction is executed all
the same (R77); the check is the predicate a cautious claim asks for (93_implementation_defined.md U7). -/

namespace Sys2Proof

/-- The instruction is one the assembler of R80 emits: `CLS` and `RET` with bits 11 to 8 zero, `SE Vx, Vy` and
`SNE Vx, Vy` with low nibble 0; `SHR` and `SHL` with any `y` (R80 admits the two-operand spelling). -/
def Instr.wellFormed : Instr → Bool
  | .cls m => m == 0
  | .ret m => m == 0
  | .jp _ => true
  | .call _ => true
  | .seImm _ _ => true
  | .sneImm _ _ => true
  | .seReg _ _ n => n == 0
  | .ldImm _ _ => true
  | .addImm _ _ => true
  | .ldReg _ _ => true
  | .orReg _ _ => true
  | .andReg _ _ => true
  | .xorReg _ _ => true
  | .addReg _ _ => true
  | .subReg _ _ => true
  | .shr _ _ => true
  | .subnReg _ _ => true
  | .shl _ _ => true
  | .sneReg _ _ n => n == 0
  | .ldI _ => true
  | .jpV0 _ => true
  | .rnd _ _ => true
  | .drw _ _ _ => true
  | .skp _ => true
  | .sknp _ => true
  | .ldVxDt _ => true
  | .ldVxK _ => true
  | .ldDtVx _ => true
  | .ldStVx _ => true
  | .addI _ => true
  | .ldGlyph _ => true
  | .ldBcd _ => true
  | .storeRegs _ => true
  | .loadRegs _ => true

end Sys2Proof
end

