-- ==== Sys2Proof/Decode.lean ====
section
/-! DEFINITION. The decoder (30_encoding.md R70 to R79, 60_exceptions.md R201) and, after it, the encoder and the
opcode map (R74). UNVERIFIED: the spec takes the bit patterns of 31 of the 34 rows from general knowledge (D1, G1);
a wrong pattern would make every claim about that row unsafe (assumption log 8). -/

namespace Sys2Proof

/-- Why bytes are no instruction. -/
inductive DecodeError where
  /-- The word matches no row of the map: an unknown opcode (R76). -/
  | unknownOpcode (w : Word)
  /-- Fewer than the two bytes an instruction takes (R70). -/
  | tooShort
  deriving DecidableEq, Repr

/-- The field `op`, bits 15 to 12: the primary dispatch key (R71). -/
def opField (w : Word) : Nibble := w.extractLsb' 12 4

/-- Bits 11 to 8 as they stand (R71). -/
def highField (w : Word) : Nibble := w.extractLsb' 8 4

/-- The field `x`, bits 11 to 8: the number of register `Vx` (R71). -/
def xField (w : Word) : RegNum := (highField w).toFin

/-- The field `y`, bits 7 to 4: the number of register `Vy` (R71). -/
def yField (w : Word) : RegNum := (w.extractLsb' 4 4).toFin

/-- The field `n`, bits 3 to 0 (R71). -/
def nField (w : Word) : Nibble := w.extractLsb' 0 4

/-- The field `kk`, bits 7 to 0 (R71). -/
def kkField (w : Word) : Byte := w.extractLsb' 0 8

/-- The field `nnn`, bits 11 to 0 (R71). -/
def nnnField (w : Word) : Addr12 := w.extractLsb' 0 12

/-- The 16-bit word of two bytes, the first the high one (20_memory.md R54: big-endian). -/
def wordOfBytes (hi lo : Byte) : Word := hi.setWidth 16 <<< 8 ||| lo.setWidth 16

/-- The byte of a word that stands at the lower address (R54, R70). -/
def highByte (w : Word) : Byte := w.extractLsb' 8 8

/-- The byte of a word that stands at the higher address (R54, R70). -/
def lowByte (w : Word) : Byte := w.extractLsb' 0 8

/-- Group 0: the low byte selects, bits 11 to 8 are not examined (R73 (c)). Decision D2 of the spec (assumption log 13). -/
def decodeGroup0 (w : Word) : Except DecodeError Instr :=
  match kkField w with
  | 0xE0#8 => .ok (.cls (highField w))
  | 0xEE#8 => .ok (.ret (highField w))
  | _ => .error (.unknownOpcode w)

/-- Group 8: the low nibble selects (R73 (b)). -/
def decodeGroup8 (w : Word) : Except DecodeError Instr :=
  match nField w with
  | 0x0#4 => .ok (.ldReg (xField w) (yField w))
  | 0x1#4 => .ok (.orReg (xField w) (yField w))
  | 0x2#4 => .ok (.andReg (xField w) (yField w))
  | 0x3#4 => .ok (.xorReg (xField w) (yField w))
  | 0x4#4 => .ok (.addReg (xField w) (yField w))
  | 0x5#4 => .ok (.subReg (xField w) (yField w))
  | 0x6#4 => .ok (.shr (xField w) (yField w))
  | 0x7#4 => .ok (.subnReg (xField w) (yField w))
  | 0xE#4 => .ok (.shl (xField w) (yField w))
  | _ => .error (.unknownOpcode w)

/-- Group E: the low byte selects (R73 (c)). -/
def decodeGroupE (w : Word) : Except DecodeError Instr :=
  match kkField w with
  | 0x9E#8 => .ok (.skp (xField w))
  | 0xA1#8 => .ok (.sknp (xField w))
  | _ => .error (.unknownOpcode w)

/-- Group F: the low byte selects (R73 (c)). -/
def decodeGroupF (w : Word) : Except DecodeError Instr :=
  match kkField w with
  | 0x07#8 => .ok (.ldVxDt (xField w))
  | 0x0A#8 => .ok (.ldVxK (xField w))
  | 0x15#8 => .ok (.ldDtVx (xField w))
  | 0x18#8 => .ok (.ldStVx (xField w))
  | 0x1E#8 => .ok (.addI (xField w))
  | 0x29#8 => .ok (.ldGlyph (xField w))
  | 0x33#8 => .ok (.ldBcd (xField w))
  | 0x55#8 => .ok (.storeRegs (xField w))
  | 0x65#8 => .ok (.loadRegs (xField w))
  | _ => .error (.unknownOpcode w)

/-- The instruction a word selects, or its rejection as an unknown opcode (R73, R201): the primary key is the
highest nibble, and groups 0, 8, E and F have a secondary key. A function of the word alone (R70). The 16
keys are all listed, so no word comes to the last arm. -/
def decode (w : Word) : Except DecodeError Instr :=
  match opField w with
  | 0x0#4 => decodeGroup0 w
  | 0x1#4 => .ok (.jp (nnnField w))
  | 0x2#4 => .ok (.call (nnnField w))
  | 0x3#4 => .ok (.seImm (xField w) (kkField w))
  | 0x4#4 => .ok (.sneImm (xField w) (kkField w))
  | 0x5#4 => .ok (.seReg (xField w) (yField w) (nField w))
  | 0x6#4 => .ok (.ldImm (xField w) (kkField w))
  | 0x7#4 => .ok (.addImm (xField w) (kkField w))
  | 0x8#4 => decodeGroup8 w
  | 0x9#4 => .ok (.sneReg (xField w) (yField w) (nField w))
  | 0xA#4 => .ok (.ldI (nnnField w))
  | 0xB#4 => .ok (.jpV0 (nnnField w))
  | 0xC#4 => .ok (.rnd (xField w) (kkField w))
  | 0xD#4 => .ok (.drw (xField w) (yField w) (nField w))
  | 0xE#4 => decodeGroupE w
  | 0xF#4 => decodeGroupF w
  | _ => .error (.unknownOpcode w)

/-- The instruction at the head of a list of bytes and the bytes after it: two bytes, big-endian (R70, R54). -/
def decodeBytes : List Byte → Except DecodeError (Instr × List Byte)
  | hi :: lo :: rest =>
    match decode (wordOfBytes hi lo) with
    | .ok i => .ok (i, rest)
    | .error e => .error e
  | _ => .error .tooShort

/-! The encoder, by the formats of R72. -/

/-- The 4-bit field that holds a register number (R71). -/
def regField (x : RegNum) : Nibble := BitVec.ofFin x

/-- Format `NNN`: a key and a 12-bit immediate (R72). -/
def wordNNN (op : Nibble) (nnn : Addr12) : Word := op.setWidth 16 <<< 12 ||| nnn.setWidth 16

/-- Formats `XKK`, `XS` and `FIX`: a key, a 4-bit field and a low byte (R72). -/
def wordXKK (op h : Nibble) (kk : Byte) : Word :=
  op.setWidth 16 <<< 12 ||| h.setWidth 16 <<< 8 ||| kk.setWidth 16

/-- Formats `XY`, `XYS` and `XYN`: four 4-bit fields (R72). -/
def wordXYN (op h y n : Nibble) : Word :=
  op.setWidth 16 <<< 12 ||| h.setWidth 16 <<< 8 ||| y.setWidth 16 <<< 4 ||| n.setWidth 16

/-- The word of an instruction, every field at the place R71 and R74 give it. -/
def encode : Instr → Word
  | .cls m => wordXKK 0x0 m 0xE0
  | .ret m => wordXKK 0x0 m 0xEE
  | .jp nnn => wordNNN 0x1 nnn
  | .call nnn => wordNNN 0x2 nnn
  | .seImm x kk => wordXKK 0x3 (regField x) kk
  | .sneImm x kk => wordXKK 0x4 (regField x) kk
  | .seReg x y n => wordXYN 0x5 (regField x) (regField y) n
  | .ldImm x kk => wordXKK 0x6 (regField x) kk
  | .addImm x kk => wordXKK 0x7 (regField x) kk
  | .ldReg x y => wordXYN 0x8 (regField x) (regField y) 0x0
  | .orReg x y => wordXYN 0x8 (regField x) (regField y) 0x1
  | .andReg x y => wordXYN 0x8 (regField x) (regField y) 0x2
  | .xorReg x y => wordXYN 0x8 (regField x) (regField y) 0x3
  | .addReg x y => wordXYN 0x8 (regField x) (regField y) 0x4
  | .subReg x y => wordXYN 0x8 (regField x) (regField y) 0x5
  | .shr x y => wordXYN 0x8 (regField x) (regField y) 0x6
  | .subnReg x y => wordXYN 0x8 (regField x) (regField y) 0x7
  | .shl x y => wordXYN 0x8 (regField x) (regField y) 0xE
  | .sneReg x y n => wordXYN 0x9 (regField x) (regField y) n
  | .ldI nnn => wordNNN 0xA nnn
  | .jpV0 nnn => wordNNN 0xB nnn
  | .rnd x kk => wordXKK 0xC (regField x) kk
  | .drw x y n => wordXYN 0xD (regField x) (regField y) n
  | .skp x => wordXKK 0xE (regField x) 0x9E
  | .sknp x => wordXKK 0xE (regField x) 0xA1
  | .ldVxDt x => wordXKK 0xF (regField x) 0x07
  | .ldVxK x => wordXKK 0xF (regField x) 0x0A
  | .ldDtVx x => wordXKK 0xF (regField x) 0x15
  | .ldStVx x => wordXKK 0xF (regField x) 0x18
  | .addI x => wordXKK 0xF (regField x) 0x1E
  | .ldGlyph x => wordXKK 0xF (regField x) 0x29
  | .ldBcd x => wordXKK 0xF (regField x) 0x33
  | .storeRegs x => wordXKK 0xF (regField x) 0x55
  | .loadRegs x => wordXKK 0xF (regField x) 0x65

/-- The two bytes of an instruction as they stand in memory, the high byte first (R70). -/
def encodeBytes (i : Instr) : List Byte := [highByte (encode i), lowByte (encode i)]

/-- A row of the opcode map: a word `w` selects it when `w &&& mask = pattern` (R74). -/
structure OpcodeRow where
  pattern : Word
  mask : Word
  deriving DecidableEq, Repr

/-- The row of the opcode map an instruction belongs to (R74). -/
def Instr.row : Instr → OpcodeRow
  | .cls _ => ⟨0x00E0, 0xF0FF⟩  -- CLS
  | .ret _ => ⟨0x00EE, 0xF0FF⟩  -- RET
  | .jp _ => ⟨0x1000, 0xF000⟩  -- JP nnn
  | .call _ => ⟨0x2000, 0xF000⟩  -- CALL nnn
  | .seImm _ _ => ⟨0x3000, 0xF000⟩  -- SE Vx, kk
  | .sneImm _ _ => ⟨0x4000, 0xF000⟩  -- SNE Vx, kk
  | .seReg _ _ _ => ⟨0x5000, 0xF000⟩  -- SE Vx, Vy
  | .ldImm _ _ => ⟨0x6000, 0xF000⟩  -- LD Vx, kk
  | .addImm _ _ => ⟨0x7000, 0xF000⟩  -- ADD Vx, kk
  | .ldReg _ _ => ⟨0x8000, 0xF00F⟩  -- LD Vx, Vy
  | .orReg _ _ => ⟨0x8001, 0xF00F⟩  -- OR Vx, Vy
  | .andReg _ _ => ⟨0x8002, 0xF00F⟩  -- AND Vx, Vy
  | .xorReg _ _ => ⟨0x8003, 0xF00F⟩  -- XOR Vx, Vy
  | .addReg _ _ => ⟨0x8004, 0xF00F⟩  -- ADD Vx, Vy
  | .subReg _ _ => ⟨0x8005, 0xF00F⟩  -- SUB Vx, Vy
  | .shr _ _ => ⟨0x8006, 0xF00F⟩  -- SHR Vx
  | .subnReg _ _ => ⟨0x8007, 0xF00F⟩  -- SUBN Vx, Vy
  | .shl _ _ => ⟨0x800E, 0xF00F⟩  -- SHL Vx
  | .sneReg _ _ _ => ⟨0x9000, 0xF000⟩  -- SNE Vx, Vy
  | .ldI _ => ⟨0xA000, 0xF000⟩  -- LD I, nnn
  | .jpV0 _ => ⟨0xB000, 0xF000⟩  -- JP V0, nnn
  | .rnd _ _ => ⟨0xC000, 0xF000⟩  -- RND Vx, kk
  | .drw _ _ _ => ⟨0xD000, 0xF000⟩  -- DRW Vx, Vy, n
  | .skp _ => ⟨0xE09E, 0xF0FF⟩  -- SKP Vx
  | .sknp _ => ⟨0xE0A1, 0xF0FF⟩  -- SKNP Vx
  | .ldVxDt _ => ⟨0xF007, 0xF0FF⟩  -- LD Vx, DT
  | .ldVxK _ => ⟨0xF00A, 0xF0FF⟩  -- LD Vx, K
  | .ldDtVx _ => ⟨0xF015, 0xF0FF⟩  -- LD DT, Vx
  | .ldStVx _ => ⟨0xF018, 0xF0FF⟩  -- LD ST, Vx
  | .addI _ => ⟨0xF01E, 0xF0FF⟩  -- ADD I, Vx
  | .ldGlyph _ => ⟨0xF029, 0xF0FF⟩  -- LD F, Vx
  | .ldBcd _ => ⟨0xF033, 0xF0FF⟩  -- LD B, Vx
  | .storeRegs _ => ⟨0xF055, 0xF0FF⟩  -- LD [I], Vx
  | .loadRegs _ => ⟨0xF065, 0xF0FF⟩  -- LD Vx, [I]

/-- The opcode map, rows 1 to 34 (R74). -/
def opcodeMap : List OpcodeRow :=
  [⟨0x00E0, 0xF0FF⟩, ⟨0x00EE, 0xF0FF⟩, ⟨0x1000, 0xF000⟩, ⟨0x2000, 0xF000⟩, ⟨0x3000, 0xF000⟩]
  ++ [⟨0x4000, 0xF000⟩, ⟨0x5000, 0xF000⟩, ⟨0x6000, 0xF000⟩, ⟨0x7000, 0xF000⟩, ⟨0x8000, 0xF00F⟩]
  ++ [⟨0x8001, 0xF00F⟩, ⟨0x8002, 0xF00F⟩, ⟨0x8003, 0xF00F⟩, ⟨0x8004, 0xF00F⟩, ⟨0x8005, 0xF00F⟩]
  ++ [⟨0x8006, 0xF00F⟩, ⟨0x8007, 0xF00F⟩, ⟨0x800E, 0xF00F⟩, ⟨0x9000, 0xF000⟩, ⟨0xA000, 0xF000⟩]
  ++ [⟨0xB000, 0xF000⟩, ⟨0xC000, 0xF000⟩, ⟨0xD000, 0xF000⟩, ⟨0xE09E, 0xF0FF⟩, ⟨0xE0A1, 0xF0FF⟩]
  ++ [⟨0xF007, 0xF0FF⟩, ⟨0xF00A, 0xF0FF⟩, ⟨0xF015, 0xF0FF⟩, ⟨0xF018, 0xF0FF⟩, ⟨0xF01E, 0xF0FF⟩]
  ++ [⟨0xF029, 0xF0FF⟩, ⟨0xF033, 0xF0FF⟩, ⟨0xF055, 0xF0FF⟩, ⟨0xF065, 0xF0FF⟩]

/-- The word selects the row (R74). -/
def OpcodeRow.selectedBy (r : OpcodeRow) (w : Word) : Bool := w &&& r.mask == r.pattern

/-- The host's reading of the decoder: the instruction whose bits, numbered as spec/opcode_table.json numbers them,
are `w` in its low `nbits` bits and 0 above. The word is laid out as memory holds it and given to `decodeBytes`. -/
def decodeTableWord (nbits w : Nat) : Option Instr :=
  let word : Word := BitVec.ofNat 16 (w % 2 ^ nbits)
  match decodeBytes [highByte word, lowByte word] with
  | .ok (i, _) => some i
  | .error _ => none

end Sys2Proof
end

