-- ==== Sys2Proof/Config.lean ====
section
/-! DEFINITION. What is fixed for one machine, and the free values: the glyph parameter (10_state.md R33) with its
default, and the two inputs a cycle samples, which nothing constrains (R39, R41). -/

namespace Sys2Proof

/-- PARAMETER. `GLYPHS[0..79]`, the contents of the glyph set (00_scope.md R5, 10_state.md R33): the one free parameter
of the hardware, a named input of the model (U12, D13). It has no body, so a claim holds for every glyph set unless it
takes `Config.GlyphsAreDefault` as a premise (assumption log 9). -/
opaque Config.glyphs : Vector Byte 80

/-- The default the spec gives the parameter `GLYPHS` (R33): 5 bytes for each hexadecimal digit, the top row first.
UNVERIFIED: the spec itself takes these bytes from general knowledge (D13, G2; assumption log 9). -/
def Config.defaultGlyphs : List Byte :=
  [0xF0, 0x90, 0x90, 0x90, 0xF0] ++
  [0x20, 0x60, 0x20, 0x20, 0x70] ++
  [0xF0, 0x10, 0xF0, 0x80, 0xF0] ++
  [0xF0, 0x10, 0xF0, 0x10, 0xF0] ++
  [0x90, 0x90, 0xF0, 0x10, 0x10] ++
  [0xF0, 0x80, 0xF0, 0x10, 0xF0] ++
  [0xF0, 0x80, 0xF0, 0x90, 0xF0] ++
  [0xF0, 0x10, 0x20, 0x40, 0x40] ++
  [0xF0, 0x90, 0xF0, 0x90, 0xF0] ++
  [0xF0, 0x90, 0xF0, 0x10, 0xF0] ++
  [0xF0, 0x90, 0xF0, 0x90, 0x90] ++
  [0xE0, 0x90, 0xE0, 0x90, 0xE0] ++
  [0xF0, 0x80, 0x80, 0x80, 0xF0] ++
  [0xE0, 0x90, 0x90, 0x90, 0xE0] ++
  [0xF0, 0x80, 0xF0, 0x80, 0xF0] ++
  [0xF0, 0x80, 0xF0, 0x80, 0x80]

/-- The machine's glyph set is the spec's default: the premise by which a claim names the default (R33, R244). -/
abbrev Config.GlyphsAreDefault : Prop := Config.glyphs.toList = Config.defaultGlyphs

/-- FREE VALUE. What the host does to the keypad input before the cycle of a given number, counted over all resets:
`some k` when it presents the value `k`, `none` when it leaves the input as it stands (R38, R39: any value on any cycle,
no relation between one cycle's value and the next). It has no body, so a claim holds for every host (assumption
log 1). -/
opaque Config.presentedKeys : Nat → Option (BitVec 16)

/-- FREE VALUE. The random byte drawn for the cycle of a given number, counted over all resets (R36, R41: a free draw
under no law). It has no body, so a claim holds for every random source (assumption log 2). -/
opaque Config.randomByte : Nat → Byte

end Sys2Proof
end

