-- ==== Sys2Proof/Machine/State.lean ====
section
/-! DEFINITION. The state of the core (10_state.md R20), the fault causes (60_exceptions.md R205), the reasons the
model itself stops, and the reset state (R46, 70_reset_and_hazards.md R240). -/

namespace Sys2Proof.Machine

/-- The six fault causes of R205. Taking one is a next state (`raise` of Machine/Ops.lean, R206), not a stop of the
model. -/
inductive FaultCause where
  /-- `FETCH_RANGE`: a cycle begins with `pc > 0xFFE`. -/
  | fetchRange
  /-- `MEM_RANGE`: the highest address an instruction would access exceeds 0xFFF. -/
  | memRange
  /-- `STACK_OVERFLOW`: `CALL` with `sp = 16`. -/
  | stackOverflow
  /-- `STACK_UNDERFLOW`: `RET` with `sp = 0`. -/
  | stackUnderflow
  /-- `KEY_RANGE`: `SKP` or `SKNP` with `Vx > 15`. -/
  | keyRange
  /-- `VIDEO_RANGE`: a set sprite bit of `DRW` has a linear index above 2047. -/
  | videoRange
  deriving DecidableEq, Repr

/-- Why the model itself stops, where the spec gives the machine no next state. -/
inductive Fault where
  /-- Raised by `CALL` and `RET` in a state with `sp` in 17 to 31: R35 calls these values unreachable and no rule says
  which entry such an access names. Safe: the model stops, and no state with `sp ≤ 16` comes to it (assumption
  log 5). -/
  | stackPointerIllegal
  deriving DecidableEq, Repr

/-- Why the model declines a request. -/
inductive Refusal where
  /-- Raised by `exec` for an instruction that has no meaning yet. No arm answers it. Safe: nothing is claimed. -/
  | notModelled (mnemonic : String)
  /-- Raised by `hostLoad` when the host asks for a program load after the first cycle, which R44 does not allow and
  U14 gives no meaning. Safe: the model stops (assumption log 7). -/
  | loadAfterFirstCycle
  deriving DecidableEq, Repr

/-- Memory as the cells that differ from what an unlisted address reads as, addresses strictly rising
(20_memory.md R50). `Memory.wf` of Machine/Ops.lean states the form. -/
abbrev Memory := List Host.Cell

/-- The framebuffer: 32 rows of 64 one-bit cells, row 0 first; bit `c` of a row is column `c`, so pixel (x, y) is bit
`x` of row `y` and the linear index `y * 64 + x` is row-major (R30). -/
abbrev Video := Vector (BitVec 64) 32

/-- The state of the core. The first twelve fields are the elements of R20; the last five are the model's own: the
inputs and the output of the current cycle (R37, R39, R41, R204), the number the free values are applied to, and
whether a cycle was performed since reset (R44). -/
structure State where
  /-- `V0` to `VF`; `VF` is also the only flag (R21, R22). -/
  v : Vector Byte 16
  /-- The program counter (R23). -/
  pc : Word
  /-- The index register `I` (R25). -/
  index : Word
  /-- The return stack, which is not in memory (R26). -/
  stack : Vector Word 16
  /-- `stackPointer`: the number of stacked addresses, 0 to 16 (R27). -/
  sp : BitVec 5
  /-- The delay timer (R28). -/
  delayTimer : Byte
  /-- The sound timer (R28). -/
  soundTimer : Byte
  /-- The 4096 bytes of memory (R29). -/
  mem : Memory
  /-- The 64 by 32 framebuffer (R30). -/
  video : Video
  /-- The most recently fetched instruction word (R31). -/
  opcode : Word
  /-- The run flag (R32). -/
  running : Bool
  /-- The cause code of the first fault, 0 while there is none (R34, R205). -/
  fault : BitVec 4
  /-- MODEL'S OWN (input, R39): the keypad input; during a cycle, the sample of that cycle. Bit `i` is key `i`. -/
  keys : BitVec 16
  /-- MODEL'S OWN (input, R41): the random byte drawn for the current cycle. -/
  rnd : Byte
  /-- MODEL'S OWN: how many cycles the host has ever had performed; the free values of Config are applied to it. A reset
  does not write it, so no input of a cycle is drawn twice (R39, R41; assumption log 20). -/
  cycle : Nat
  /-- MODEL'S OWN (output, R45 (c), R204): the word the last cycle reported as an unknown opcode, if it did. -/
  report : Option Word
  /-- MODEL'S OWN: a cycle was performed since reset, so the time of the program load is over (R38, R44). -/
  started : Bool
  deriving DecidableEq, Repr

/-- The state after reset (R46, R240), a machine's first: every element at the value the table of R46 gives; memory
lists nothing, since an unlisted address reads as its reset contents. DESIGN CHOICE: `rnd := 0`, `cycle := 0`,
`report := none` and `started := false` are the model's own (assumption log 3). A later reset keeps `cycle`
(`hostReset` of Machine/HostOps.lean). -/
def State.reset : State where
  v := Vector.replicate 16 0
  pc := 0x0200
  index := 0
  stack := Vector.replicate 16 0
  sp := 0
  delayTimer := 0
  soundTimer := 0
  mem := []
  video := Vector.replicate 32 0
  opcode := 0
  running := true
  fault := 0
  keys := 0
  rnd := 0
  cycle := 0
  report := none
  started := false

end Sys2Proof.Machine
end

