-- ==== Sys2Proof/Machine/Ops.lean ====
section
/-! DEFINITION. The operations every instruction shares: memory, registers, stack, framebuffer, the fetch, the skip,
the timer tick, the sampling of the inputs, and taking a fault. -/

namespace Sys2Proof.Machine

/-! ## Taking a fault (60_exceptions.md R205 to R207) -/

/-- The value of the `fault` register for a cause (R205). -/
def FaultCause.code : FaultCause → BitVec 4
  | .fetchRange => 1
  | .memRange => 2
  | .stackOverflow => 3
  | .stackUnderflow => 4
  | .keyRange => 5
  | .videoRange => 6

/-- Fault entry, the one way a fault is taken (R206): `fault <- c`, `running <- 0`, nothing else. There is no saved
state, no handler and no return from a fault; only reset leads out (R207). -/
def raise (c : FaultCause) (s : State) : State :=
  { s with fault := c.code, running := false }

/-! ## Memory (20_memory.md R50 to R58) -/

/-- What an unlisted address reads as: the contents of that address after reset (R46, R51), the bytes of the
parameter `GLYPHS` at 0x050 to 0x09F and 0 everywhere else. -/
def Memory.resetByte (a : Nat) : Byte :=
  if h : 0x050 ≤ a ∧ a ≤ 0x09F then Config.glyphs[a - 0x050] else 0

/-- The byte at an address (R52). -/
def Memory.read : Memory → Nat → Byte
  | [], a => Memory.resetByte a
  | (a', b) :: m, a => if a = a' then b else Memory.read m a

/-- Store a byte at an address, keeping the canonical form. -/
def Memory.put : Memory → Nat → Byte → Memory
  | [], a, b => if b = Memory.resetByte a then [] else [(a, b)]
  | (a', b') :: m, a, b =>
    if a < a' then
      if b = Memory.resetByte a then (a', b') :: m else (a, b) :: (a', b') :: m
    else if a = a' then
      if b = Memory.resetByte a then m else (a, b) :: m
    else (a', b') :: Memory.put m a b

/-- `memory[a] <- b` (R53). There is no cell above 0xFFF (R50); every instruction checks its addresses before it
writes, so a write is asked for in range only. -/
def Memory.write (m : Memory) (a : Nat) (b : Byte) : Memory :=
  if a ≤ 0xFFF then m.put a b else m

/-- The canonical form from an address on: addresses rise strictly, none is above 0xFFF, and no cell holds what its
address reads as when unlisted. -/
def Memory.wfFrom : Nat → Memory → Bool
  | _, [] => true
  | lo, (a, b) :: m =>
    decide (lo ≤ a) && decide (a ≤ 0xFFF) && decide (b ≠ Memory.resetByte a) && Memory.wfFrom (a + 1) m

/-- The canonical form of memory. -/
def Memory.wf (m : Memory) : Bool := Memory.wfFrom 0 m

/-- The bytes at `a`, `a + 1`, ..., `n` of them, lowest address first (R57). -/
def Memory.readBytes (m : Memory) (a n : Nat) : List Byte :=
  (List.range n).map fun i => m.read (a + i)

/-- Store bytes at `a`, `a + 1`, ..., lowest address first (R57). -/
def Memory.writeBytes : Memory → Nat → List Byte → Memory
  | m, _, [] => m
  | m, a, b :: bs => Memory.writeBytes (m.write a b) (a + 1) bs

/-! ## General registers and the flag (10_state.md R21, R22) -/

/-- `V[x]`. -/
def State.reg (s : State) (x : RegNum) : Byte := s.v[x]

/-- `V[x] <- b`, and nothing else. -/
def State.setReg (s : State) (x : RegNum) (b : Byte) : State :=
  { s with v := s.v.set x.val b }

/-- The end of an instruction that sets the flag: the result to `V[x]`, then the flag to `VF` as the last write, so
that with `x = 15` the result is lost to the flag (R22, conflict C3). -/
def State.setRegThenFlag (s : State) (x : RegNum) (result flag : Byte) : State :=
  (s.setReg x result).setReg 15 flag

/-! ## Program counter and stack (R23, R24, R26, R27) -/

/-- `pc <- (pc + 2) mod 65536` when the condition holds (40_flow.md R104). -/
def State.skipIf (c : Bool) (s : State) : State :=
  { s with pc := if c then s.pc + 2 else s.pc }

/-- `pc <- target`. -/
def State.jump (target : Word) (s : State) : State := { s with pc := target }

/-- `stack[sp] <- a` and `sp <- sp + 1`, for `sp` below 16 (R102). -/
def State.push (a : Word) (s : State) : State :=
  { s with stack := s.stack.setIfInBounds s.sp.toNat a, sp := s.sp + 1 }

/-- The entry `stack[k]`, if there is one: the stack has 16 (R26). -/
def State.stackEntry (s : State) (k : Nat) : Option Word := s.stack[k]?

/-! ## Framebuffer (R30, 43_display.md R172) -/

/-- Row `y` of the framebuffer; there are 32. -/
def Video.row (f : Video) (y : Nat) : BitVec 64 := f[y]?.getD 0

/-- `video[L]`, the pixel of linear index `L = y * 64 + x`. -/
def Video.pixel (f : Video) (L : Nat) : Bool := (f.row (L / 64)).getLsbD (L % 64)

/-- `video[L] <- video[L] ^ 1`. -/
def Video.toggle (f : Video) (L : Nat) : Video :=
  f.setIfInBounds (L / 64) (f.row (L / 64) ^^^ (1#64 <<< (L % 64)))

/-! ## The parts of a cycle (60_exceptions.md R200) -/

/-- A step request is honoured when `running = 1` and `fault = 0` (10_state.md R40). -/
def State.honours (s : State) : Bool := s.running && s.fault == 0

/-- The inputs of the cycle about to run: the keypad as the host leaves or presents it, a fresh random byte (R39,
R41), and no report yet. The cycle is counted, so that the next one samples anew, and ends the time of the program
load (R44). -/
def State.sampleInputs (s : State) : State :=
  { s with
    keys := (Config.presentedKeys s.cycle).getD s.keys
    rnd := Config.randomByte s.cycle
    cycle := s.cycle + 1
    report := none
    started := true }

/-- The word the fetch reads: the bytes at `pc` and `pc + 1`, big-endian (20_memory.md R54). -/
def State.fetchWord (s : State) : Word :=
  wordOfBytes (s.mem.read s.pc.toNat) (s.mem.read (s.pc.toNat + 1))

/-- Steps 2 and 3 of the cycle: the word goes to `opcode` and `pc` moves past it (R200). -/
def State.fetched (s : State) : State :=
  { s with opcode := s.fetchWord, pc := s.pc + 2 }

/-- One timer's tick: lowered by 1 when it is not 0 (R221). -/
def tickTimer (t : Byte) : Byte := if t = 0 then 0 else t - 1

/-- Step 5 of the cycle: both timers tick (R200, R221). -/
def State.tick (s : State) : State :=
  { s with delayTimer := tickTimer s.delayTimer, soundTimer := tickTimer s.soundTimer }

/-- The end of a cycle whose instruction led to `s`: a cycle that took a fault does not tick (R206). -/
def State.endCycle (s : State) : State := if s.fault = 0 then s.tick else s

/-- The unknown-opcode report of the word in `opcode`; no other effect (R204). -/
def State.reportUnknown (s : State) : State := { s with report := some s.opcode }

end Sys2Proof.Machine
end

