-- ==== Sys2Proof/Machine/Flags.lean ====
section
/-! DEFINITION. Every value an instruction gives the flag `VF` (10_state.md R22): always 0 or 1. -/

namespace Sys2Proof.Machine

/-- The flag value of a condition: 1 when it holds, else 0. -/
def flagOf (c : Bool) : Byte := if c then 1 else 0

/-- `ADD Vx, Vy`: carry out, 1 when the true sum exceeds 255 (41_alu.md R126). -/
def carryFlag (a b : Byte) : Byte := flagOf (decide (a.toNat + b.toNat > 255))

/-- `SUB` and `SUBN`: no borrow, 1 when the minuend `a` is at least the subtrahend `b` (R127, R129). -/
def noBorrowFlag (a b : Byte) : Byte := flagOf (decide (a.toNat ≥ b.toNat))

/-- `SHR`: bit 0 of the value before the shift (R128). -/
def shiftedOutLow (a : Byte) : Byte := flagOf (a.getLsbD 0)

/-- `SHL`: bit 7 of the value before the shift (R130). -/
def shiftedOutHigh (a : Byte) : Byte := flagOf (a.getLsbD 7)

/-- `DRW`: collision, 1 when a pixel under a set sprite bit is on before the draw (43_display.md R171, R174 (c)). -/
def collisionFlag (collided : Bool) : Byte := flagOf collided

end Sys2Proof.Machine
end

