-- ==== Sys2Proof/Machine/Operands.lean ====
section
/-! DEFINITION. Operand forms: the immediates (30_encoding.md R75), the one data addressing mode (42_index_memory.md
R156), the glyph address, the decimal digits, the sprite and the keypad. -/

namespace Sys2Proof.Machine

/-- `zext_16(nnn)` (R75). -/
def zextAddr (nnn : Addr12) : Word := nnn.setWidth 16

/-- `zext_16(v)` of a byte (R75). -/
def zextByte (b : Byte) : Word := b.setWidth 16

/-- The effective address `index + i`, an unbounded sum (R156, 20_memory.md R58). -/
def State.ea (s : State) (i : Nat) : Nat := s.index.toNat + i

/-- The address is beyond memory, an access to it faults (R52, R53). -/
def beyondMemory (a : Nat) : Bool := decide (a > 0xFFF)

/-- The address of the glyph of a digit, `0x050 + 5 * Vx`; the value is not masked (R152, decision D14). -/
def glyphAddress (b : Byte) : Word := BitVec.ofNat 16 (0x050 + 5 * b.toNat)

/-- The three decimal digits of a byte, hundreds first (R153). -/
def bcdDigits (b : Byte) : List Byte :=
  [byteOfNat (b.toNat / 100), byteOfNat (b.toNat / 10 % 10), byteOfNat (b.toNat % 10)]

/-- `V[0]` to `V[x]`, lowest register first (R154). -/
def State.regsUpTo (s : State) (x : RegNum) : List Byte := s.v.toList.take (x.val + 1)

/-- The linear indices of the set bits of one sprite row that starts at linear index `base`: column `c` is bit `7 - c`
(43_display.md R172, R173). UNVERIFIED: the bit order is general knowledge in the spec (D12, G3; assumption log 10). -/
def spriteRowCells (base : Nat) (b : Byte) : List Nat :=
  ((List.range 8).filter fun c => b.getLsbD (7 - c)).map fun c => base + c

/-- The linear indices `(y0 + r) * 64 + (x0 + c)` of the set bits of a sprite, in the order of R171: only the start is
reduced (R172, decision D11; assumption log 11). -/
def spriteCells (x0 : Nat) : Nat → List Byte → List Nat
  | _, [] => []
  | y, b :: rows => spriteRowCells (y * 64 + x0) b ++ spriteCells x0 (y + 1) rows

/-- The cells the set bits of the sprite of `DRW Vx, Vy, n` fall on: `n` rows from `memory[index]`, the start
(`Vx mod 64`, `Vy mod 32`) (R171). -/
def State.drawCells (s : State) (x y : RegNum) (n : Nibble) : List Nat :=
  spriteCells ((s.reg x).toNat % 64) ((s.reg y).toNat % 32) (s.mem.readBytes s.index.toNat n.toNat)

/-- `keys[k]` (10_state.md R39). -/
def State.keyDown (s : State) (k : Nat) : Bool := s.keys.getLsbD k

/-- The least key pressed, if any is (44_keypad_timers.md R183). -/
def State.lowestKey (s : State) : Option Nat := (List.range 16).find? fun k => s.keyDown k

end Sys2Proof.Machine
end

