-- ==== Sys2Proof/Machine/Alu.lean ====
section
/-! DEFINITION. Register load, arithmetic, logic, shift and random (41_alu.md R120 to R133). Operands are read before
the first write; the flag is the last write (10_state.md R22). -/

namespace Sys2Proof.Machine

/-- `LD Vx, kk` (R120). -/
def execLdImm (x : RegNum) (kk : Byte) (s : State) : Host.Outcome State Fault Refusal :=
  .next (s.setReg x kk)

/-- `ADD Vx, kk` (R121): wraps, sets no flag. -/
def execAddImm (x : RegNum) (kk : Byte) (s : State) : Host.Outcome State Fault Refusal :=
  .next (s.setReg x (s.reg x + kk))

/-- `LD Vx, Vy` (R122). -/
def execLdReg (x y : RegNum) (s : State) : Host.Outcome State Fault Refusal :=
  .next (s.setReg x (s.reg y))

/-- `OR Vx, Vy` (R123); `VF` is not touched (decision D24). -/
def execOrReg (x y : RegNum) (s : State) : Host.Outcome State Fault Refusal :=
  .next (s.setReg x (s.reg x ||| s.reg y))

/-- `AND Vx, Vy` (R124); `VF` is not touched (decision D24). -/
def execAndReg (x y : RegNum) (s : State) : Host.Outcome State Fault Refusal :=
  .next (s.setReg x (s.reg x &&& s.reg y))

/-- `XOR Vx, Vy` (R125); `VF` is not touched (decision D24). -/
def execXorReg (x y : RegNum) (s : State) : Host.Outcome State Fault Refusal :=
  .next (s.setReg x (s.reg x ^^^ s.reg y))

/-- `ADD Vx, Vy` (R126): `VF` is the carry out. -/
def execAddReg (x y : RegNum) (s : State) : Host.Outcome State Fault Refusal :=
  .next (s.setRegThenFlag x (s.reg x + s.reg y) (carryFlag (s.reg x) (s.reg y)))

/-- `SUB Vx, Vy` (R127): `Vx - Vy`, `VF` is 1 when no borrow occurred. -/
def execSubReg (x y : RegNum) (s : State) : Host.Outcome State Fault Refusal :=
  .next (s.setRegThenFlag x (s.reg x - s.reg y) (noBorrowFlag (s.reg x) (s.reg y)))

/-- `SHR Vx` (R128): logical, in place; `Vy` is not read (decision D24). -/
def execShr (x : RegNum) (s : State) : Host.Outcome State Fault Refusal :=
  .next (s.setRegThenFlag x (s.reg x >>> 1) (shiftedOutLow (s.reg x)))

/-- `SUBN Vx, Vy` (R129): `Vy - Vx`, `VF` is 1 when no borrow occurred. -/
def execSubnReg (x y : RegNum) (s : State) : Host.Outcome State Fault Refusal :=
  .next (s.setRegThenFlag x (s.reg y - s.reg x) (noBorrowFlag (s.reg y) (s.reg x)))

/-- `SHL Vx` (R130): in place; `Vy` is not read (decision D24). -/
def execShl (x : RegNum) (s : State) : Host.Outcome State Fault Refusal :=
  .next (s.setRegThenFlag x (s.reg x <<< 1) (shiftedOutHigh (s.reg x)))

/-- `RND Vx, kk` (R131): the random byte of the cycle under the mask. -/
def execRnd (x : RegNum) (kk : Byte) (s : State) : Host.Outcome State Fault Refusal :=
  .next (s.setReg x (s.rnd &&& kk))

end Sys2Proof.Machine
end

