-- ==== Sys2Proof/Machine/Display.lean ====
section
/-! DEFINITION. The framebuffer instructions (43_display.md R170 to R174). -/

namespace Sys2Proof.Machine

/-- `CLS` (R170): every pixel off. -/
def execCls (s : State) : Host.Outcome State Fault Refusal :=
  .next { s with video := Vector.replicate 32 0 }

/-- One set sprite bit of R171: record a collision when its pixel is on, then flip the pixel. -/
def plot (acc : Video × Bool) (L : Nat) : Video × Bool :=
  (acc.1.toggle L, acc.2 || acc.1.pixel L)

/-- The drawing loop of R171 over the cells of the set sprite bits, with `collision <- 0` at its start. -/
def plotAll (f : Video) (cells : List Nat) : Video × Bool := cells.foldl plot (f, false)

/-- `DRW Vx, Vy, n` (R171): `MEM_RANGE` when the last sprite byte is beyond memory, then `VIDEO_RANGE` when a set
sprite bit is beyond the last pixel, both before anything changes; else the exclusive-OR draw, the collision flag
last. -/
def execDrw (x y : RegNum) (n : Nibble) (s : State) : Host.Outcome State Fault Refusal :=
  if n ≠ 0 ∧ beyondMemory (s.ea (n.toNat - 1)) then .next (raise .memRange s)
  else if (s.drawCells x y n).any fun L => decide (L > 2047) then .next (raise .videoRange s)
  else .next (State.setReg { s with video := (plotAll s.video (s.drawCells x y n)).1 } 15
    (collisionFlag (plotAll s.video (s.drawCells x y n)).2))

end Sys2Proof.Machine
end

