-- ==== Sys2Proof/Machine/Flow.lean ====
section
/-! DEFINITION. Control transfer (40_flow.md R100 to R109): `RET`, `CALL`, `JP`, the four register skips, `JP V0`.
Each meaning starts with `pc` at the address of the instruction plus 2 (R100). -/

namespace Sys2Proof.Machine

/-- `RET` (R101): `STACK_UNDERFLOW` when the stack is empty, else the top entry goes to `pc`; the entry keeps its
value. The model's own stop covers `sp` above 16, which R35 calls unreachable (assumption log 5). -/
def execRet (s : State) : Host.Outcome State Fault Refusal :=
  if s.sp = 0 then .next (raise .stackUnderflow s)
  else match s.stackEntry (s.sp.toNat - 1) with
    | some a => .next (State.jump a { s with sp := s.sp - 1 })
    | none => .fault .stackPointerIllegal

/-- `CALL nnn` (R102): `STACK_OVERFLOW` when 16 addresses are stacked, else push `pc` and jump. The model's own stop
covers `sp` above 16 (assumption log 5). -/
def execCall (nnn : Addr12) (s : State) : Host.Outcome State Fault Refusal :=
  if s.sp = 16 then .next (raise .stackOverflow s)
  else if s.sp.toNat < 16 then .next (State.jump (zextAddr nnn) (State.push s.pc s))
  else .fault .stackPointerIllegal

/-- `JP nnn` (R103). -/
def execJp (nnn : Addr12) (s : State) : Host.Outcome State Fault Refusal :=
  .next (State.jump (zextAddr nnn) s)

/-- `SE Vx, kk` (R104). -/
def execSeImm (x : RegNum) (kk : Byte) (s : State) : Host.Outcome State Fault Refusal :=
  .next (State.skipIf (s.reg x == kk) s)

/-- `SNE Vx, kk` (R105). -/
def execSneImm (x : RegNum) (kk : Byte) (s : State) : Host.Outcome State Fault Refusal :=
  .next (State.skipIf (s.reg x != kk) s)

/-- `SE Vx, Vy` (R106); the low nibble of the word has no effect (R77 (a)). -/
def execSeReg (x y : RegNum) (s : State) : Host.Outcome State Fault Refusal :=
  .next (State.skipIf (s.reg x == s.reg y) s)

/-- `SNE Vx, Vy` (R107); the low nibble of the word has no effect (R77 (a)). -/
def execSneReg (x y : RegNum) (s : State) : Host.Outcome State Fault Refusal :=
  .next (State.skipIf (s.reg x != s.reg y) s)

/-- `JP V0, nnn` (R108): the sum is not reduced to 12 bits. -/
def execJpV0 (nnn : Addr12) (s : State) : Host.Outcome State Fault Refusal :=
  .next (State.jump (zextAddr nnn + zextByte (s.reg 0)) s)

end Sys2Proof.Machine
end

