-- ==== Sys2Proof/Machine/IndexMemory.lean ====
section
/-! DEFINITION. The index register, loads and stores (42_index_memory.md R150 to R156). Every range check is made
before the first write (20_memory.md R52). -/

namespace Sys2Proof.Machine

/-- `LD I, nnn` (R150). -/
def execLdI (nnn : Addr12) (s : State) : Host.Outcome State Fault Refusal :=
  .next { s with index := zextAddr nnn }

/-- `ADD I, Vx` (R151): wraps modulo 65536, sets no flag, faults never. -/
def execAddI (x : RegNum) (s : State) : Host.Outcome State Fault Refusal :=
  .next { s with index := s.index + zextByte (s.reg x) }

/-- `LD F, Vx` (R152): the formula for every value of `Vx` (decision D14). -/
def execLdGlyph (x : RegNum) (s : State) : Host.Outcome State Fault Refusal :=
  .next { s with index := glyphAddress (s.reg x) }

/-- `LD B, Vx` (R153): the three decimal digits to memory, hundreds at `index`. -/
def execLdBcd (x : RegNum) (s : State) : Host.Outcome State Fault Refusal :=
  if beyondMemory (s.ea 2) then .next (raise .memRange s)
  else .next { s with mem := s.mem.writeBytes (s.ea 0) (bcdDigits (s.reg x)) }

/-- `LD [I], Vx` (R154): `V0` to `Vx` to memory; `index` is unchanged (decision D24). -/
def execStoreRegs (x : RegNum) (s : State) : Host.Outcome State Fault Refusal :=
  if beyondMemory (s.ea x.val) then .next (raise .memRange s)
  else .next { s with mem := s.mem.writeBytes (s.ea 0) (s.regsUpTo x) }

/-- `LD Vx, [I]` (R155): memory to `V0` to `Vx`; `index` is unchanged (decision D24). -/
def execLoadRegs (x : RegNum) (s : State) : Host.Outcome State Fault Refusal :=
  if beyondMemory (s.ea x.val) then .next (raise .memRange s)
  else .next { s with v := s.v.mapIdx fun i old => if i ≤ x.val then s.mem.read (s.ea i) else old }

end Sys2Proof.Machine
end

