-- ==== Sys2Proof/Machine/KeypadTimers.lean ====
section
/-! DEFINITION. Keypad and timer instructions (44_keypad_timers.md R180 to R185). `keys` is the sample of the current
cycle; the tick of the cycle comes after the instruction (60_exceptions.md R200). -/

namespace Sys2Proof.Machine

/-- `SKP Vx` (R180): `KEY_RANGE` when `Vx > 15`, else skip when key `Vx` is pressed. -/
def execSkp (x : RegNum) (s : State) : Host.Outcome State Fault Refusal :=
  if (s.reg x).toNat > 15 then .next (raise .keyRange s)
  else .next (State.skipIf (s.keyDown (s.reg x).toNat) s)

/-- `SKNP Vx` (R181): `KEY_RANGE` when `Vx > 15`, else skip when key `Vx` is not pressed. -/
def execSknp (x : RegNum) (s : State) : Host.Outcome State Fault Refusal :=
  if (s.reg x).toNat > 15 then .next (raise .keyRange s)
  else .next (State.skipIf (!s.keyDown (s.reg x).toNat) s)

/-- `LD Vx, DT` (R182): the value before the tick of this cycle. -/
def execLdVxDt (x : RegNum) (s : State) : Host.Outcome State Fault Refusal :=
  .next (s.setReg x s.delayTimer)

/-- The state after one cycle of the key wait (R183): with no key pressed `pc` goes back to the instruction, else
`Vx` receives the least pressed key. -/
def State.waitKey (x : RegNum) (s : State) : State :=
  match s.lowestKey with
  | none => { s with pc := s.pc - 2 }
  | some k => s.setReg x (byteOfNat k)

/-- `LD Vx, K` (R183): a polling wait, one whole cycle each time. -/
def execLdVxK (x : RegNum) (s : State) : Host.Outcome State Fault Refusal :=
  .next (State.waitKey x s)

/-- `LD DT, Vx` (R184). -/
def execLdDtVx (x : RegNum) (s : State) : Host.Outcome State Fault Refusal :=
  .next { s with delayTimer := s.reg x }

/-- `LD ST, Vx` (R185). -/
def execLdStVx (x : RegNum) (s : State) : Host.Outcome State Fault Refusal :=
  .next { s with soundTimer := s.reg x }

end Sys2Proof.Machine
end

