-- ==== Sys2Proof/Machine/Cycle.lean ====
section
/-! DEFINITION. The cycle (60_exceptions.md R200 to R204) and the step request (10_state.md R40). -/

namespace Sys2Proof.Machine

/-- What a cycle makes of its instruction's outcome: the timers tick unless a fault was taken (R200 step 5, R206). -/
def afterInstr : Host.Outcome State Fault Refusal → Host.Outcome State Fault Refusal
  | .next t => .next t.endCycle
  | .fault r => .fault r
  | .refused r => .refused r

/-- Step 4 of the cycle, on the state the fetch left: the decoder reads `opcode` (10_state.md R31), and the instruction
it selects runs, or the word is reported as an unknown opcode and the cycle goes on (R204). -/
def execFetched (s : State) : Host.Outcome State Fault Refusal :=
  match decode s.opcode with
  | .ok i => afterInstr (exec i s)
  | .error _ => .next s.reportUnknown.tick

/-- One cycle on sampled inputs (R200): the fetch check, the fetch, the advance, then step 4 and 5. A fetch beyond
0xFFE faults and reads nothing (20_memory.md R54, R208). -/
def runCycle (s : State) : Host.Outcome State Fault Refusal :=
  if s.pc.toNat > 0xFFE then .next (raise .fetchRange s)
  else execFetched s.fetched

/-- A step request (R40): one cycle when the core runs; otherwise no state changes. -/
def stepRequest (s : State) : Host.Outcome State Fault Refusal :=
  if s.honours then runCycle s.sampleInputs else .next s

/-- The state `withFetchWord` gives (assumption log 16): the word's two bytes where the next fetch reads them, the
core running; a `pc` no fetch may use is replaced by the program's start. -/
def State.placeWord (w : Word) (s : State) : State :=
  let pc : Word := if s.pc.toNat > 0xFFE then 0x0200 else s.pc
  { s with
    mem := s.mem.writeBytes pc.toNat [highByte w, lowByte w]
    pc := pc
    running := true
    fault := 0 }

end Sys2Proof.Machine
end

