-- ==== Sys2Proof/Machine/Step.lean ====
section
/-! DEFINITION. The step of the machine, and the placing of one instruction word where the next step fetches. -/

namespace Sys2Proof.Machine

/-- One step: the host requests one cycle (10_state.md R40, 60_exceptions.md R200). -/
def step (s : State) : Host.Outcome State Fault Refusal := stepRequest s

/-- `s` with the instruction whose bits are `w` (its low `nbits` bits, 0 above) stored where the next step fetches. -/
def State.withFetchWord (s : State) (nbits w : Nat) : State :=
  State.placeWord (BitVec.ofNat 16 (w % 2 ^ nbits)) s

end Sys2Proof.Machine
end

