-- ==== Sys2Proof/Machine/HostOps.lean ====
section
/-! DEFINITION. What the host does between two cycles (10_state.md R38 to R46): each request is an operation of its
own. `step` performs none of them but the keypad's (assumption log 6). -/

namespace Sys2Proof.Machine

/-- The reset request (R46, 70_reset_and_hazards.md R241): from every state, a faulted or stopped one too, to the state
of the table of R46. The counter of the free inputs is the host's and goes on, so that the cycles after the reset draw
inputs of their own (R39, R41; assumption log 20). -/
def hostReset (s : State) : State := { State.reset with cycle := s.cycle }

/-- The stop request (R43): `running <- 0`, nothing else. -/
def hostStop (s : State) : State := { s with running := false }

/-- The host presents a keypad value (R39). -/
def hostPresentKeys (k : BitVec 16) (s : State) : State := { s with keys := k }

/-- The memory after `load(image)`: the image from 0x200 upward, truncated to 3584 bytes, all else kept (R44). -/
def loadImage (m : Memory) (image : List Byte) : Memory := m.writeBytes 0x200 (image.take 3584)

/-- The load request (R44): allowed before the first cycle only; a later one has no meaning (U14) and is refused
(assumption log 7). -/
def hostLoad (image : List Byte) (s : State) : Host.Outcome State Fault Refusal :=
  if s.started then .refused .loadAfterFirstCycle else .next { s with mem := loadImage s.mem image }

/-- The framebuffer read-out of pixel (x, y) (R42, R30); reading has no side effect. -/
def hostReadPixel (s : State) (x : Fin 64) (y : Fin 32) : Bool := s.video.pixel (y.val * 64 + x.val)

end Sys2Proof.Machine
end

