-- ==== Sys2Proof/Safety.lean ====
section
/-! DEFINITION. What counts as a safe run, in the terms claims use: the run states (60_exceptions.md R228), the
invariant of reachable states, and the optional predicate of a finished program (70_reset_and_hazards.md R246). -/

namespace Sys2Proof.Machine

/-- The three conditions of the core (R228). -/
inductive RunState where
  | running
  | stopped
  | faulted
  deriving DecidableEq, Repr

/-- The condition a state is in (R228). -/
def State.runState (s : State) : RunState :=
  if s.fault ≠ 0 then .faulted else if s.running then .running else .stopped

/-- What holds in every reachable state: memory keeps its canonical form, at most 16 addresses are stacked (R27), the
fault register holds a code of R205, and a faulted core does not run (R206). -/
abbrev State.Inv (s : State) : Prop :=
  s.mem.wf = true ∧ s.sp.toNat ≤ 16 ∧ s.fault.toNat ≤ 6 ∧ (s.fault ≠ 0 → s.running = false)

/-- A finished program by convention: the word at `pc` is `1nnn` with `nnn = pc` (R246, general knowledge in the spec,
G6). -/
abbrev State.finished (s : State) : Prop :=
  ∃ nnn : Addr12, decode s.fetchWord = .ok (.jp nnn) ∧ zextAddr nnn = s.pc

end Sys2Proof.Machine
end

