-- ==== Sys2Proof/Certificates/Slice0/Obligations.lean ====
section
/-! DEFINITION. The statements for the provers, from the numbered rules of the spec. In each instruction statement
`s` is the state the instruction starts in, `pc` already past its word (40_flow.md R100), and `t` the state it
leads to. -/

namespace Sys2Proof.Claims

open Sys2Proof.Machine

/-- The word whose number is `w` decodes to `i`. -/
def Decodes (w : Nat) (i : Instr) : Prop := decode (BitVec.ofNat 16 w) = .ok i

/-- The instruction takes the fault of a code and nothing else happens: `fault` and `running` are written, the
instruction itself has no effect (60_exceptions.md R206). -/
def Faults (i : Instr) (s : State) (code : BitVec 4) : Prop :=
  exec i s = .next { s with fault := code, running := false }

/-- Every element but the general registers is as before: program counter, index, stack, timers, all of memory, the
framebuffer, `opcode`, the run state and the inputs. -/
def OnlyRegs (s t : State) : Prop := { t with v := s.v } = s

/-- Every element but the program counter is as before. -/
def OnlyPc (s t : State) : Prop := { t with pc := s.pc } = s

/-- Every element but the index register is as before. -/
def OnlyIndex (s t : State) : Prop := { t with index := s.index } = s

/-- Every element but memory is as before. -/
def OnlyMemory (s t : State) : Prop := { t with mem := s.mem } = s

/-- A set bit of the sprite of `DRW Vx, Vy, n` falls on the pixel of linear index `L`: bit `7 - c` of the byte at
`index + r`, at `((Vy mod 32) + r) * 64 + ((Vx mod 64) + c)` (43_display.md R171 to R173). -/
def Covered (s : State) (x y : RegNum) (n : Nibble) (L : Nat) : Prop :=
  ∃ r c : Nat, r < n.toNat ∧ c < 8 ∧ (s.mem.read (s.ea r)).getLsbD (7 - c) = true ∧
    L = ((s.reg y).toNat % 32 + r) * 64 + ((s.reg x).toNat % 64 + c)

/-- The sprite of `DRW Vx, Vy, n` reaches beyond memory: `n > 0` and `index + n - 1 > 0xFFF` (R171). -/
def SpriteBeyondMemory (s : State) (n : Nibble) : Prop := 0 < n.toNat ∧ 0xFFF < s.ea (n.toNat - 1)

/-- The state the instruction of a cycle starts in: inputs sampled (10_state.md R39, R41), the word at `pc` in
`opcode`, `pc` moved past it (60_exceptions.md R200 steps 2 and 3). -/
def AtInstruction (s : State) : State :=
  { s with
    keys := (Config.presentedKeys s.cycle).getD s.keys
    rnd := Config.randomByte s.cycle
    cycle := s.cycle + 1
    report := none
    started := true
    opcode := s.fetchWord
    pc := s.pc + 2 }

/-- The tick of a cycle's end (R200 step 5). -/
def Ticked (t : State) : State :=
  { t with
    delayTimer := if t.delayTimer.toNat > 0 then t.delayTimer - 1 else t.delayTimer
    soundTimer := if t.soundTimer.toNat > 0 then t.soundTimer - 1 else t.soundTimer }

end Sys2Proof.Claims

open Sys2Proof Sys2Proof.Machine Sys2Proof.Claims

/-! ## The cycle -/

/-- When the bytes at `pc` decode to an instruction, the step is that instruction, run on the state the fetch leaves,
followed by the timer tick unless it took a fault (60_exceptions.md R200, R201). -/
def Obligations.StepRunsTheDecodedInstruction : Prop :=
  ∀ (s : State) (i : Instr), s.running = true → s.fault = 0 → s.pc.toNat ≤ 0xFFE →
    decode s.fetchWord = .ok i →
    step s = match exec i (AtInstruction s) with
      | .next t => .next (if t.fault = 0 then Ticked t else t)
      | .fault r => .fault r
      | .refused r => .refused r

/-- R204: a word that selects no instruction is reported, `pc` moves past it, the timers tick, and every other element
keeps its value. The field `report` is how the model shows this output of the cycle (assumption log 15). -/
def Obligations.UnknownOpcodeIsAReportedNoOp : Prop :=
  ∀ s : State, s.running = true → s.fault = 0 → s.pc.toNat ≤ 0xFFE →
    (∀ i, decode s.fetchWord ≠ .ok i) →
    step s = .next (Ticked { AtInstruction s with report := some s.fetchWord })

/-- R54: the fetch reads the bytes at `pc` and `pc + 1`, the first the high one, into `opcode`, whatever the
instruction then does; with `pc > 0xFFE` the cycle takes `FETCH_RANGE` and no other element of the core changes (the
five fields of the model's own hold the inputs sampled and say that a cycle began, assumption log 1 to 3). -/
def Obligations.FetchIsBigEndianAndRangeChecked : Prop :=
  (∀ s t : State, s.running = true → s.fault = 0 → s.pc.toNat ≤ 0xFFE → step s = .next t →
    t.opcode.toNat = 0x100 * (s.mem.read s.pc.toNat).toNat + (s.mem.read (s.pc.toNat + 1)).toNat) ∧
  (∀ s : State, s.running = true → s.fault = 0 → 0xFFE < s.pc.toNat →
    ∃ t, step s = .next t ∧ t.fault = 1 ∧ t.running = false ∧
      { t with fault := s.fault, running := s.running, keys := s.keys, rnd := s.rnd, cycle := s.cycle,
               report := s.report, started := s.started } = s)

/-- R40: with `running = 1` and `fault = 0` a step request performs exactly one cycle, as the model's own cycle counter
shows (model's choice, assumption log 3); otherwise it does nothing. -/
def Obligations.StepRequestHonouredOnlyWhenRunning : Prop :=
  (∀ s t : State, s.running = true ∧ s.fault = 0 → step s = .next t → t.cycle = s.cycle + 1) ∧
  (∀ s : State, ¬(s.running = true ∧ s.fault = 0) → step s = .next s)

/-- R43: the stop request clears `running` and changes nothing else, after it any number of step requests do nothing,
and of the host's other requests only reset sets `running` again. -/
def Obligations.StopRequestEndsTheRun : Prop :=
  ∀ s : State, (hostStop s).running = false ∧ { hostStop s with running := s.running } = s ∧
    (∀ k, core.run k (hostStop s) = .next (hostStop s)) ∧
    (∀ keys, (hostPresentKeys keys s).running = s.running) ∧
    (∀ image t, hostLoad image s = .next t → t.running = s.running) ∧ (hostReset s).running = true

/-- R207: a faulted core stays as it is for any number of step requests, so the first fault is the only one. A stop
request keeps `fault`, and changes nothing once `running` is 0, as every fault leaves it; presenting keys writes the
keypad input alone, and a load that is accepted keeps `fault`. Reset leads out: to the reset state, but for the counter
of the free inputs, which the model keeps (model's choice, assumption log 20). -/
def Obligations.FaultedCoreNeverChanges : Prop :=
  ∀ s : State, s.fault ≠ 0 →
    (∀ k, core.run k s = .next s) ∧
    (hostStop s).fault = s.fault ∧ (s.running = false → hostStop s = s) ∧
    (∀ keys, { hostPresentKeys keys s with keys := s.keys } = s) ∧
    (∀ image t, hostLoad image s = .next t → t.fault = s.fault) ∧
    { hostReset s with cycle := 0 } = State.reset

/-- R221, the tick seen over whole cycles. After one cycle without a fault each timer is one less than it was, and 0
stays 0, unless the cycle's instruction wrote it: then it is one less than the value written. After `k` cycles in which
no instruction writes a timer and no fault is taken it is `max(0, t - k)`. -/
def Obligations.TimersTickOncePerCycle : Prop :=
  (∀ s t : State, s.running = true → s.fault = 0 → step s = .next t → t.fault = 0 →
    (∀ x, decode s.fetchWord = .ok (.ldDtVx x) → t.delayTimer.toNat = (s.reg x).toNat - 1) ∧
    ((∀ x, decode s.fetchWord ≠ .ok (.ldDtVx x)) → t.delayTimer.toNat = s.delayTimer.toNat - 1) ∧
    (∀ x, decode s.fetchWord = .ok (.ldStVx x) → t.soundTimer.toNat = (s.reg x).toNat - 1) ∧
    ((∀ x, decode s.fetchWord ≠ .ok (.ldStVx x)) → t.soundTimer.toNat = s.soundTimer.toNat - 1)) ∧
  ∀ (k : Nat) (s t : State), s.running = true → s.fault = 0 → core.run k s = .next t → t.fault = 0 →
    ((∀ j < k, ∀ u x, core.run j s = .next u → decode u.fetchWord ≠ .ok (.ldDtVx x)) →
      t.delayTimer.toNat = s.delayTimer.toNat - k) ∧
    ((∀ j < k, ∀ u x, core.run j s = .next u → decode u.fetchWord ≠ .ok (.ldStVx x)) →
      t.soundTimer.toNat = s.soundTimer.toNat - k)

/-- A core that spins on a jump to its own address (R246's convention, R103): for any number of cycles `pc`, the
registers, memory, the framebuffer, the index register and the stack stay, no fault is taken, the timers run down to 0
(R221: `max(0, t − k)`), and after the first cycle `opcode` is the jump word (R31). These are all the elements of R20. -/
def Obligations.IdleLoopOnlyRunsTheTimersDown : Prop :=
  ∀ (k : Nat) (s : State), s.running = true → s.fault = 0 → s.pc.toNat ≤ 0xFFE → s.finished →
    ∃ t, core.run k s = .next t ∧ t.pc = s.pc ∧ t.v = s.v ∧ t.mem = s.mem ∧ t.video = s.video ∧
      t.index = s.index ∧ t.stack = s.stack ∧ t.sp = s.sp ∧ t.running = true ∧ t.fault = 0 ∧
      t.delayTimer.toNat = s.delayTimer.toNat - k ∧ t.soundTimer.toNat = s.soundTimer.toNat - k ∧
      t.opcode = if k = 0 then s.opcode else s.fetchWord

/-! ## Decoding -/

/-- One canonical word of each of the 16 groups (two of group 0), its number written out from R74, decodes to its
instruction. -/
def Obligations.SpecWordsDecode : Prop :=
  Decodes 0x00E0 (.cls 0) ∧ Decodes 0x00EE (.ret 0) ∧ Decodes 0x12A0 (.jp 0x2A0) ∧ Decodes 0x2300 (.call 0x300) ∧
  Decodes 0x3310 (.seImm 3 0x10) ∧ Decodes 0x4310 (.sneImm 3 0x10) ∧ Decodes 0x5120 (.seReg 1 2 0) ∧
  Decodes 0x6005 (.ldImm 0 5) ∧ Decodes 0x7003 (.addImm 0 3) ∧ Decodes 0x8124 (.addReg 1 2) ∧
  Decodes 0x9120 (.sneReg 1 2 0) ∧ Decodes 0xA300 (.ldI 0x300) ∧ Decodes 0xB210 (.jpV0 0x210) ∧
  Decodes 0xC20F (.rnd 2 0x0F) ∧ Decodes 0xD015 (.drw 0 1 5) ∧ Decodes 0xE19E (.skp 1) ∧ Decodes 0xF265 (.loadRegs 2)

/-- Decoding an encoded instruction gives it back, with every operand at every value: no bit of an encoding is
dropped (R70 to R74). -/
def Obligations.DecodeOfEncodeIsIdentity : Prop := ∀ i : Instr, decode (encode i) = .ok i

/-- The decoder is injective: encoding the instruction it reads gives the word again. The spec does not say so, its
decoder ignores the bits of R72 and R77; it holds because the constructors keep every bit of the word, the ignored ones
too, which is the model's choice (assumption log 17). -/
def Obligations.EncodeOfDecodeIsIdentity : Prop := ∀ (w : Word) (i : Instr), decode w = .ok i → encode i = w

/-- R74: the map has 34 rows; a word selects a row when `w & mask = match`; the decoder gives an instruction of that
row, and of no other. -/
def Obligations.DecoderFollowsTheOpcodeMap : Prop :=
  opcodeMap.length = 34 ∧
  (∀ (w : Word) (i : Instr), decode w = .ok i → i.row ∈ opcodeMap ∧ w &&& i.row.mask = i.row.pattern) ∧
  (∀ (w : Word) (r : OpcodeRow), r ∈ opcodeMap → w &&& r.mask = r.pattern → ∃ i, decode w = .ok i ∧ i.row = r)

/-- R76: the unknown opcodes are exactly these words of groups 0, 8, E and F. -/
def Obligations.UnknownOpcodesAreExactlyThese : Prop :=
  ∀ w : Word, (∀ i, decode w ≠ .ok i) ↔
    (w.toNat / 0x1000 = 0x0 ∧ w.toNat % 0x100 ∉ [0xE0, 0xEE]) ∨
    (w.toNat / 0x1000 = 0x8 ∧ w.toNat % 0x10 ∈ [0x8, 0x9, 0xA, 0xB, 0xC, 0xD, 0xF]) ∨
    (w.toNat / 0x1000 = 0xE ∧ w.toNat % 0x100 ∉ [0x9E, 0xA1]) ∨
    (w.toNat / 0x1000 = 0xF ∧
      w.toNat % 0x100 ∉ [0x07, 0x0A, 0x15, 0x18, 0x1E, 0x29, 0x33, 0x55, 0x65])

/-! ## Invariants and whole-machine rules -/

/-- The reset state meets the invariant of reachable states. -/
def Obligations.ResetMeetsTheInvariant : Prop := State.reset.Inv

/-- Every step keeps the invariant: memory stays canonical, at most 16 addresses are stacked (R27), `fault` holds a
code of R205, a faulted core does not run (R206). -/
def Obligations.StepKeepsTheInvariant : Prop := ∀ s t : State, s.Inv → step s = .next t → t.Inv

/-- The host's requests keep the invariant too, so it holds in every reachable state (10_state.md R38). -/
def Obligations.HostRequestsKeepTheInvariant : Prop :=
  ∀ s : State, s.Inv → (hostStop s).Inv ∧ (hostReset s).Inv ∧ (∀ k, (hostPresentKeys k s).Inv) ∧
    ∀ image t, hostLoad image s = .next t → t.Inv

/-- R202: a step is total. With at most 16 addresses stacked, which every reachable state has, it answers a next state
(possibly a faulted one): the model never stops. -/
def Obligations.StepAlwaysAnswersANextState : Prop := ∀ s : State, s.sp.toNat ≤ 16 → ∃ t, step s = .next t

/-- The model's own stops, all of them: `CALL` and `RET` with `sp` above 16, which R35 calls unreachable (model's
choice, assumption log 5), and a program load after the first cycle (model's choice, assumption log 7). Every other
instruction, and every earlier load, answers a next state. -/
def Obligations.ModelStopsOnlyOnIllegalStackPointerOrLateLoad : Prop :=
  (∀ (nnn : Addr12) (s : State), 16 < s.sp.toNat → exec (.call nnn) s = .fault .stackPointerIllegal) ∧
  (∀ (m : Nibble) (s : State), 16 < s.sp.toNat → exec (.ret m) s = .fault .stackPointerIllegal) ∧
  (∀ (i : Instr) (s : State), s.sp.toNat ≤ 16 ∨ (∀ nnn, i ≠ .call nnn) ∧ (∀ m, i ≠ .ret m) →
    ∃ t, exec i s = .next t) ∧
  (∀ (image : List Byte) (s : State), s.started = false → ∃ t, hostLoad image s = .next t) ∧
  (∀ (image : List Byte) (s : State), s.started = true → hostLoad image s = .refused .loadAfterFirstCycle)

/-- R206: faults are precise. A cycle that takes one writes `fault` and `running`; with the fetch out of range nothing
else (the five fields of the model's own say what was sampled, assumption log 1 to 3), otherwise `opcode` and `pc` as
the fetch left them besides, with a code from 2 to 6; neither timer ticks, and no later step request changes the
state. -/
def Obligations.FaultsArePrecise : Prop :=
  ∀ s t : State, s.running = true → s.fault = 0 → step s = .next t → t.fault ≠ 0 →
    (0xFFE < s.pc.toNat ∧ t.fault = 1 ∧
        { t with fault := 0, running := true, keys := s.keys, rnd := s.rnd, cycle := s.cycle, report := s.report,
                 started := s.started } = s ∨
      s.pc.toNat ≤ 0xFFE ∧ 2 ≤ t.fault.toNat ∧ t.fault.toNat ≤ 6 ∧
        t = { AtInstruction s with fault := t.fault, running := false }) ∧
    t.running = false ∧ ∀ k, core.run k t = .next t

/-- R205: no instruction takes a fault under any other condition than the table's. -/
def Obligations.NoOtherConditionFaults : Prop :=
  ∀ (i : Instr) (s t : State), s.fault = 0 → exec i s = .next t → t.fault ≠ 0 →
    (t.fault = 2 ∧ ∃ x y n, i = .drw x y n ∧ SpriteBeyondMemory s n) ∨
    (t.fault = 2 ∧ ∃ x, i = .ldBcd x ∧ 0xFFF < s.ea 2) ∨
    (t.fault = 2 ∧ ∃ x : RegNum, (i = .storeRegs x ∨ i = .loadRegs x) ∧ 0xFFF < s.ea x.val) ∨
    (t.fault = 3 ∧ ∃ nnn, i = .call nnn ∧ s.sp = 16) ∨
    (t.fault = 4 ∧ ∃ m, i = .ret m ∧ s.sp = 0) ∨
    (t.fault = 5 ∧ ∃ x, (i = .skp x ∨ i = .sknp x) ∧ 15 < (s.reg x).toNat) ∨
    (t.fault = 6 ∧ ∃ x y n, i = .drw x y n ∧ ∃ L, Covered s x y n L ∧ 2047 < L)

/-- R22: `VF` changes only in the six instructions that set the flag and in instructions that name register 15 as
their destination. -/
def Obligations.FlagRegisterChangesOnlyWhereNamed : Prop :=
  ∀ (i : Instr) (s t : State), exec i s = .next t → t.reg 15 ≠ s.reg 15 →
    (∃ x y, i = .addReg x y ∨ i = .subReg x y ∨ i = .shr x y ∨ i = .subnReg x y ∨ i = .shl x y) ∨
    (∃ x y n, i = .drw x y n) ∨
    (∃ kk, i = .ldImm 15 kk ∨ i = .addImm 15 kk ∨ i = .rnd 15 kk) ∨
    (∃ y, i = .ldReg 15 y ∨ i = .orReg 15 y ∨ i = .andReg 15 y ∨ i = .xorReg 15 y) ∨
    i = .ldVxDt 15 ∨ i = .ldVxK 15 ∨ i = .loadRegs 15

/-- R30: the framebuffer is written by `CLS` and `DRW` alone. -/
def Obligations.OnlyClsAndDrwWriteTheFramebuffer : Prop :=
  ∀ (i : Instr) (s t : State), exec i s = .next t → t.video ≠ s.video →
    (∃ m, i = .cls m) ∨ ∃ x y n, i = .drw x y n

/-- R50 and R53: memory is written by `LD B` and `LD [I]` alone, and only at the bytes they store: every other address
reads as before. The premise is the canonical form of memory, an invariant. -/
def Obligations.OnlyStoredBytesOfMemoryChange : Prop :=
  ∀ (i : Instr) (s t : State) (a : Nat), s.mem.wf = true → exec i s = .next t → t.mem.read a ≠ s.mem.read a →
    (∃ x, i = .ldBcd x ∧ s.ea 0 ≤ a ∧ a ≤ s.ea 2) ∨
    (∃ x : RegNum, i = .storeRegs x ∧ s.ea 0 ≤ a ∧ a ≤ s.ea x.val)

/-- R25, R26, R27, R28: the stack, the stack pointer, the index register and the timers are written by the listed
instructions alone. -/
def Obligations.SpecialRegistersChangeOnlyWhereNamed : Prop :=
  ∀ (i : Instr) (s t : State), exec i s = .next t →
    (t.stack ≠ s.stack → ∃ nnn, i = .call nnn) ∧
    (t.sp ≠ s.sp → (∃ nnn, i = .call nnn) ∨ ∃ m, i = .ret m) ∧
    (t.index ≠ s.index → (∃ nnn, i = .ldI nnn) ∨ ∃ x, i = .addI x ∨ i = .ldGlyph x) ∧
    (t.delayTimer ≠ s.delayTimer → ∃ x, i = .ldDtVx x) ∧
    (t.soundTimer ≠ s.soundTimer → ∃ x, i = .ldStVx x)

/-- R31, R32, R34, R39: no instruction writes `opcode` or an input, and `running` and `fault` change by a fault
alone. -/
def Obligations.InstructionsLeaveTheRunStateToFaults : Prop :=
  ∀ (i : Instr) (s t : State), exec i s = .next t →
    t.opcode = s.opcode ∧ t.keys = s.keys ∧ t.rnd = s.rnd ∧ t.cycle = s.cycle ∧ t.report = s.report ∧
    t.started = s.started ∧
    (t.running = s.running ∧ t.fault = s.fault ∨ t.running = false ∧ t.fault ≠ 0)

/-- R24: the ways an instruction changes `pc`, and no other. -/
def Obligations.ProgramCounterChangesOnlyAsListed : Prop :=
  ∀ (i : Instr) (s t : State), exec i s = .next t →
    t.pc = s.pc ∨
    (t.pc = s.pc + 2 ∧ ((∃ x kk, i = .seImm x kk ∨ i = .sneImm x kk) ∨ (∃ x y n, i = .seReg x y n ∨ i = .sneReg x y n) ∨
      ∃ x, i = .skp x ∨ i = .sknp x)) ∨
    (t.pc = s.pc - 2 ∧ s.keys = 0 ∧ ∃ x, i = .ldVxK x) ∨
    (∃ nnn, (i = .jp nnn ∨ i = .call nnn) ∧ t.pc.toNat = nnn.toNat) ∨
    (∃ nnn, i = .jpV0 nnn ∧ t.pc.toNat = nnn.toNat + (s.reg 0).toNat) ∨
    (∃ m, ∃ k : Fin 16, i = .ret m ∧ s.sp.toNat = k.val + 1 ∧ t.pc = s.stack[k])

/-! ## Control transfer -/

/-- R101: `RET` with an empty stack takes `STACK_UNDERFLOW`; otherwise `sp` is one less and `pc` is the entry at the
new `sp`, which keeps its value. -/
def Obligations.RetPopsTheReturnAddress : Prop :=
  Decodes 0x00EE (.ret 0) ∧
  (∀ (m : Nibble) (s : State), s.sp = 0 → Faults (.ret m) s 4) ∧
  (∀ (m : Nibble) (s : State) (k : Fin 16), s.sp.toNat = k.val + 1 →
    ∃ t, exec (.ret m) s = .next t ∧ t.sp.toNat = k.val ∧ t.pc = s.stack[k] ∧
      { t with pc := s.pc, sp := s.sp } = s)

/-- R102: `CALL` with 16 addresses stacked takes `STACK_OVERFLOW`; otherwise `pc`, the address of the `CALL` plus 2,
goes to `stack[sp]`, `sp` is one more, and `pc` is `nnn`. -/
def Obligations.CallPushesTheReturnAddress : Prop :=
  (∀ nnn : Addr12, Decodes (0x2000 + nnn.toNat) (.call nnn)) ∧
  (∀ (nnn : Addr12) (s : State), s.sp = 16 → Faults (.call nnn) s 3) ∧
  (∀ (nnn : Addr12) (s : State) (k : Fin 16), s.sp.toNat = k.val →
    ∃ t, exec (.call nnn) s = .next t ∧ t.stack[k] = s.pc ∧ (∀ j : Fin 16, j ≠ k → t.stack[j] = s.stack[j]) ∧
      t.sp.toNat = k.val + 1 ∧ t.pc.toNat = nnn.toNat ∧
      { t with pc := s.pc, sp := s.sp, stack := s.stack } = s)

/-- E6 (R101, R102): a call and then a return resume at the instruction after the call site, with `sp` as before. -/
def Obligations.CallThenReturnResumesAfterTheCall : Prop :=
  ∀ (nnn : Addr12) (m : Nibble) (s : State), s.sp.toNat < 16 →
    ∃ t u, exec (.call nnn) s = .next t ∧ exec (.ret m) t = .next u ∧ u.pc = s.pc ∧ u.sp = s.sp ∧
      { u with stack := s.stack } = s

/-- R103: `JP` sets `pc` to its 12-bit address and changes nothing else. -/
def Obligations.JumpSetsThePc : Prop :=
  ∀ nnn : Addr12, Decodes (0x1000 + nnn.toNat) (.jp nnn) ∧
    ∀ s : State, ∃ t, exec (.jp nnn) s = .next t ∧ t.pc.toNat = nnn.toNat ∧ OnlyPc s t

/-- R108: `JP V0, nnn` sets `pc` to `nnn + V0`, not reduced to 12 bits, and changes nothing else. -/
def Obligations.JumpWithOffsetAddsV0 : Prop :=
  ∀ nnn : Addr12, Decodes (0xB000 + nnn.toNat) (.jpV0 nnn) ∧
    ∀ s : State, ∃ t, exec (.jpV0 nnn) s = .next t ∧ t.pc.toNat = nnn.toNat + (s.reg 0).toNat ∧ OnlyPc s t

/-- R104 and R105: `SE Vx, kk` and `SNE Vx, kk` add 2 to `pc` when the register equals, or differs from, the
immediate, and change nothing else. -/
def Obligations.SkipsOnAnImmediate : Prop :=
  ∀ (x : RegNum) (kk : Byte),
    Decodes (0x3000 + 0x100 * x.val + kk.toNat) (.seImm x kk) ∧
    Decodes (0x4000 + 0x100 * x.val + kk.toNat) (.sneImm x kk) ∧
    ∀ s : State,
      (∃ t, exec (.seImm x kk) s = .next t ∧ OnlyPc s t ∧
        t.pc.toNat = if s.reg x = kk then (s.pc.toNat + 2) % 65536 else s.pc.toNat) ∧
      (∃ t, exec (.sneImm x kk) s = .next t ∧ OnlyPc s t ∧
        t.pc.toNat = if s.reg x = kk then s.pc.toNat else (s.pc.toNat + 2) % 65536)

/-- R106 and R107: `SE Vx, Vy` and `SNE Vx, Vy` add 2 to `pc` when the registers are equal, or differ, whatever the low
nibble of the word, and change nothing else. -/
def Obligations.SkipsOnTwoRegisters : Prop :=
  ∀ (x y : RegNum) (n : Nibble),
    Decodes (0x5000 + 0x100 * x.val + 0x10 * y.val + n.toNat) (.seReg x y n) ∧
    Decodes (0x9000 + 0x100 * x.val + 0x10 * y.val + n.toNat) (.sneReg x y n) ∧
    ∀ s : State,
      (∃ t, exec (.seReg x y n) s = .next t ∧ OnlyPc s t ∧
        t.pc.toNat = if s.reg x = s.reg y then (s.pc.toNat + 2) % 65536 else s.pc.toNat) ∧
      (∃ t, exec (.sneReg x y n) s = .next t ∧ OnlyPc s t ∧
        t.pc.toNat = if s.reg x = s.reg y then s.pc.toNat else (s.pc.toNat + 2) % 65536)

/-! ## Registers, arithmetic, logic, shift, random -/

/-- R120: `LD Vx, kk` assigns the immediate; every other register and element is as before. -/
def Obligations.LoadImmediateAssigns : Prop :=
  ∀ (x : RegNum) (kk : Byte), Decodes (0x6000 + 0x100 * x.val + kk.toNat) (.ldImm x kk) ∧
    ∀ s : State, ∃ t, exec (.ldImm x kk) s = .next t ∧ OnlyRegs s t ∧
      ∀ z, t.reg z = if z = x then kk else s.reg z

/-- R121: `ADD Vx, kk` wraps modulo 256 and sets no flag. -/
def Obligations.AddImmediateWrapsWithoutFlag : Prop :=
  ∀ (x : RegNum) (kk : Byte), Decodes (0x7000 + 0x100 * x.val + kk.toNat) (.addImm x kk) ∧
    ∀ s : State, ∃ t, exec (.addImm x kk) s = .next t ∧ OnlyRegs s t ∧
      (t.reg x).toNat = ((s.reg x).toNat + kk.toNat) % 256 ∧ ∀ z, z ≠ x → t.reg z = s.reg z

/-- R122: `LD Vx, Vy` copies a register; `Vy` and every other register is as before. -/
def Obligations.CopyRegister : Prop :=
  ∀ x y : RegNum, Decodes (0x8000 + 0x100 * x.val + 0x10 * y.val) (.ldReg x y) ∧
    ∀ s : State, ∃ t, exec (.ldReg x y) s = .next t ∧ OnlyRegs s t ∧
      ∀ z, t.reg z = if z = x then s.reg y else s.reg z

/-- R123, R124, R125: `OR`, `AND` and `XOR` combine the two registers bit by bit into `Vx` and set no flag. -/
def Obligations.LogicIsBitwiseWithoutFlag : Prop :=
  ∀ x y : RegNum,
    Decodes (0x8001 + 0x100 * x.val + 0x10 * y.val) (.orReg x y) ∧
    Decodes (0x8002 + 0x100 * x.val + 0x10 * y.val) (.andReg x y) ∧
    Decodes (0x8003 + 0x100 * x.val + 0x10 * y.val) (.xorReg x y) ∧
    ∀ s : State,
      (∃ t, exec (.orReg x y) s = .next t ∧ OnlyRegs s t ∧ (∀ z, z ≠ x → t.reg z = s.reg z) ∧
        ∀ b < 8, (t.reg x).getLsbD b = ((s.reg x).getLsbD b || (s.reg y).getLsbD b)) ∧
      (∃ t, exec (.andReg x y) s = .next t ∧ OnlyRegs s t ∧ (∀ z, z ≠ x → t.reg z = s.reg z) ∧
        ∀ b < 8, (t.reg x).getLsbD b = ((s.reg x).getLsbD b && (s.reg y).getLsbD b)) ∧
      (∃ t, exec (.xorReg x y) s = .next t ∧ OnlyRegs s t ∧ (∀ z, z ≠ x → t.reg z = s.reg z) ∧
        ∀ b < 8, (t.reg x).getLsbD b = ((s.reg x).getLsbD b ^^ (s.reg y).getLsbD b))

/-- R126: `ADD Vx, Vy` leaves the sum modulo 256 in `Vx` and then the carry in `VF`, with `x = 15` the carry alone. -/
def Obligations.AddRegistersSetsTheCarry : Prop :=
  ∀ x y : RegNum, Decodes (0x8004 + 0x100 * x.val + 0x10 * y.val) (.addReg x y) ∧
    ∀ s : State, ∃ t, exec (.addReg x y) s = .next t ∧ OnlyRegs s t ∧
      t.reg 15 = (if (s.reg x).toNat + (s.reg y).toNat > 255 then 1 else 0) ∧
      (x ≠ 15 → (t.reg x).toNat = ((s.reg x).toNat + (s.reg y).toNat) % 256) ∧
      ∀ z, z ≠ x → z ≠ 15 → t.reg z = s.reg z

/-- R127 and R129: `SUB` leaves `Vx - Vy` and `SUBN` leaves `Vy - Vx` modulo 256 in `Vx`, and then 1 in `VF` when no
borrow occurred, else 0; with `x = 15` the flag alone. -/
def Obligations.SubtractionsSetTheNoBorrowFlag : Prop :=
  ∀ x y : RegNum,
    Decodes (0x8005 + 0x100 * x.val + 0x10 * y.val) (.subReg x y) ∧
    Decodes (0x8007 + 0x100 * x.val + 0x10 * y.val) (.subnReg x y) ∧
    ∀ s : State,
      (∃ t, exec (.subReg x y) s = .next t ∧ OnlyRegs s t ∧
        t.reg 15 = (if (s.reg x).toNat ≥ (s.reg y).toNat then 1 else 0) ∧
        (x ≠ 15 → ((t.reg x).toNat : Int) = ((s.reg x).toNat - (s.reg y).toNat) % 256) ∧
        ∀ z, z ≠ x → z ≠ 15 → t.reg z = s.reg z) ∧
      (∃ t, exec (.subnReg x y) s = .next t ∧ OnlyRegs s t ∧
        t.reg 15 = (if (s.reg y).toNat ≥ (s.reg x).toNat then 1 else 0) ∧
        (x ≠ 15 → ((t.reg x).toNat : Int) = ((s.reg y).toNat - (s.reg x).toNat) % 256) ∧
        ∀ z, z ≠ x → z ≠ 15 → t.reg z = s.reg z)

/-- R128 and R130: `SHR` and `SHL` shift `Vx` by one bit in place and leave the bit shifted out in `VF`, whatever `y`
is; `Vy` is not read, and is written only if it is `Vx` or `VF`. -/
def Obligations.ShiftsSetTheBitShiftedOut : Prop :=
  ∀ x y : RegNum,
    Decodes (0x8006 + 0x100 * x.val + 0x10 * y.val) (.shr x y) ∧
    Decodes (0x800E + 0x100 * x.val + 0x10 * y.val) (.shl x y) ∧
    ∀ s : State,
      (∃ t, exec (.shr x y) s = .next t ∧ OnlyRegs s t ∧ (t.reg 15).toNat = (s.reg x).toNat % 2 ∧
        (x ≠ 15 → (t.reg x).toNat = (s.reg x).toNat / 2) ∧ ∀ z, z ≠ x → z ≠ 15 → t.reg z = s.reg z) ∧
      (∃ t, exec (.shl x y) s = .next t ∧ OnlyRegs s t ∧ (t.reg 15).toNat = (s.reg x).toNat / 128 ∧
        (x ≠ 15 → (t.reg x).toNat = (2 * (s.reg x).toNat) % 256) ∧ ∀ z, z ≠ x → z ≠ 15 → t.reg z = s.reg z)

/-- R131: `RND Vx, kk` leaves the random byte of the cycle under the mask, whatever byte it is; no flag is set. -/
def Obligations.RandomByteUnderTheMask : Prop :=
  ∀ (x : RegNum) (kk : Byte), Decodes (0xC000 + 0x100 * x.val + kk.toNat) (.rnd x kk) ∧
    ∀ s : State, ∃ t, exec (.rnd x kk) s = .next t ∧ OnlyRegs s t ∧ (∀ z, z ≠ x → t.reg z = s.reg z) ∧
      ∀ b < 8, (t.reg x).getLsbD b = (s.rnd.getLsbD b && kk.getLsbD b)

/-! ## Index register, loads and stores -/

/-- R150: `LD I, nnn` assigns the zero-extended address to the index register and changes nothing else. -/
def Obligations.LoadIndexAssigns : Prop :=
  ∀ nnn : Addr12, Decodes (0xA000 + nnn.toNat) (.ldI nnn) ∧
    ∀ s : State, ∃ t, exec (.ldI nnn) s = .next t ∧ t.index.toNat = nnn.toNat ∧ OnlyIndex s t

/-- R151: `ADD I, Vx` adds modulo 65536, sets no flag and changes nothing else. -/
def Obligations.AddToIndexWrapsWithoutFlag : Prop :=
  ∀ x : RegNum, Decodes (0xF01E + 0x100 * x.val) (.addI x) ∧
    ∀ s : State, ∃ t, exec (.addI x) s = .next t ∧
      t.index.toNat = (s.index.toNat + (s.reg x).toNat) % 65536 ∧ OnlyIndex s t

/-- R152: `LD F, Vx` sets the index register to `0x050 + 5 * Vx`, for every value of `Vx`. -/
def Obligations.GlyphAddressOfADigit : Prop :=
  ∀ x : RegNum, Decodes (0xF029 + 0x100 * x.val) (.ldGlyph x) ∧
    ∀ s : State, ∃ t, exec (.ldGlyph x) s = .next t ∧ t.index.toNat = 0x050 + 5 * (s.reg x).toNat ∧ OnlyIndex s t

/-- R153: `LD B, Vx` takes `MEM_RANGE` when `index + 2 > 0xFFF`; otherwise it stores the hundreds, tens and units of
`Vx` at `index`, `index + 1`, `index + 2` and changes nothing else. The premise on memory is an invariant. -/
def Obligations.DecimalDigitsAreStored : Prop :=
  ∀ x : RegNum, Decodes (0xF033 + 0x100 * x.val) (.ldBcd x) ∧
    ∀ s : State,
      (0xFFF < s.ea 2 → Faults (.ldBcd x) s 2) ∧
      (s.ea 2 ≤ 0xFFF → s.mem.wf = true → ∃ t, exec (.ldBcd x) s = .next t ∧
        (t.mem.read (s.ea 0)).toNat = (s.reg x).toNat / 100 ∧
        (t.mem.read (s.ea 1)).toNat = (s.reg x).toNat / 10 % 10 ∧
        (t.mem.read (s.ea 2)).toNat = (s.reg x).toNat % 10 ∧
        (∀ a, ¬(s.ea 0 ≤ a ∧ a ≤ s.ea 2) → t.mem.read a = s.mem.read a) ∧ OnlyMemory s t)

/-- R154: `LD [I], Vx` takes `MEM_RANGE` when `index + x > 0xFFF`; otherwise it stores `V0` to `Vx` from `index`
upward and changes nothing else. The premise on memory is an invariant. -/
def Obligations.RegistersAreStored : Prop :=
  ∀ x : RegNum, Decodes (0xF055 + 0x100 * x.val) (.storeRegs x) ∧
    ∀ s : State,
      (0xFFF < s.ea x.val → Faults (.storeRegs x) s 2) ∧
      (s.ea x.val ≤ 0xFFF → s.mem.wf = true → ∃ t, exec (.storeRegs x) s = .next t ∧
        (∀ j : RegNum, j ≤ x → t.mem.read (s.ea j.val) = s.reg j) ∧
        (∀ a, ¬(s.ea 0 ≤ a ∧ a ≤ s.ea x.val) → t.mem.read a = s.mem.read a) ∧ OnlyMemory s t)

/-- R155: `LD Vx, [I]` takes `MEM_RANGE` when `index + x > 0xFFF`; otherwise it loads `V0` to `Vx` from `index` upward
and changes nothing else. -/
def Obligations.RegistersAreLoaded : Prop :=
  ∀ x : RegNum, Decodes (0xF065 + 0x100 * x.val) (.loadRegs x) ∧
    ∀ s : State,
      (0xFFF < s.ea x.val → Faults (.loadRegs x) s 2) ∧
      (s.ea x.val ≤ 0xFFF → ∃ t, exec (.loadRegs x) s = .next t ∧ OnlyRegs s t ∧
        ∀ j : RegNum, t.reg j = if j ≤ x then s.mem.read (s.ea j.val) else s.reg j)

/-- R154 and R155 together: registers stored and loaded back from the same index hold what was stored, whatever the
registers were in between. -/
def Obligations.StoredRegistersLoadBack : Prop :=
  ∀ (x : RegNum) (s : State) (between : Vector Byte 16), s.mem.wf = true → s.ea x.val ≤ 0xFFF →
    ∃ t u, exec (.storeRegs x) s = .next t ∧ exec (.loadRegs x) { t with v := between } = .next u ∧
      ∀ j : RegNum, j ≤ x → u.reg j = s.reg j

/-- R62: a store into the instruction stream is seen by the next fetch: after `LD [I], Vx` with `x ≥ 1` and `index`
at the following instruction, the word there is `V0` and `V1`, `V0` the high byte (R55). -/
def Obligations.StoredWordIsFetchedNext : Prop :=
  ∀ (x : RegNum) (s : State), 1 ≤ x.val → s.mem.wf = true → s.index = s.pc → s.ea x.val ≤ 0xFFF →
    ∃ t, exec (.storeRegs x) s = .next t ∧
      t.fetchWord.toNat = 0x100 * (s.reg 0).toNat + (s.reg 1).toNat

/-! ## Framebuffer -/

/-- R30 and R42: the read-out of pixel (x, y) is the cell of linear index `y * 64 + x`. That this cell is bit `x` of row
`y` is the model's representation of the framebuffer, the model's choice (assumption log 19). -/
def Obligations.FramebufferIsRowMajor : Prop :=
  ∀ (s : State) (x : Fin 64) (y : Fin 32), hostReadPixel s x y = s.video.pixel (y.val * 64 + x.val) ∧
    s.video.pixel (y.val * 64 + x.val) = (s.video[y]).getLsbD x.val

/-- R170: `CLS` turns all 2048 pixels off and changes nothing else. -/
def Obligations.ClearTurnsEveryPixelOff : Prop :=
  Decodes 0x00E0 (.cls 0) ∧
  ∀ (m : Nibble) (s : State), ∃ t, exec (.cls m) s = .next t ∧ (∀ L ≤ 2047, t.video.pixel L = false) ∧
    { t with video := s.video } = s

/-- R171: `DRW` takes `MEM_RANGE` when its last sprite byte is beyond memory, else `VIDEO_RANGE` when a set sprite bit
falls beyond pixel 2047; otherwise it flips exactly the pixels under set bits, and then `VF` is 1 when one of them was
on, else 0; every other register and element is as before. -/
def Obligations.DrawFlipsThePixelsUnderTheSprite : Prop :=
  ∀ (x y : RegNum) (n : Nibble), Decodes (0xD000 + 0x100 * x.val + 0x10 * y.val + n.toNat) (.drw x y n) ∧
    ∀ s : State,
      (SpriteBeyondMemory s n → Faults (.drw x y n) s 2) ∧
      (¬SpriteBeyondMemory s n → (∃ L, Covered s x y n L ∧ 2047 < L) → Faults (.drw x y n) s 6) ∧
      (¬SpriteBeyondMemory s n → (∀ L, Covered s x y n L → L ≤ 2047) →
        ∃ t, exec (.drw x y n) s = .next t ∧
          (∀ L ≤ 2047, Covered s x y n L → t.video.pixel L = !s.video.pixel L) ∧
          (∀ L ≤ 2047, ¬Covered s x y n L → t.video.pixel L = s.video.pixel L) ∧
          ((∃ L, Covered s x y n L ∧ s.video.pixel L = true) → t.reg 15 = 1) ∧
          ((∀ L, Covered s x y n L → s.video.pixel L = false) → t.reg 15 = 0) ∧
          (∀ z, z ≠ 15 → t.reg z = s.reg z) ∧
          { t with video := s.video, v := s.v } = s)

/-- R174 (a): a sprite drawn twice at the same position restores the framebuffer, and the second draw's `VF` is 1
exactly when a pixel under a set bit was off before the first. "Same position" is the premise on `Vx` and `Vy` after
the first draw, which `VF` as an operand could break. -/
def Obligations.DrawingTwiceRestoresTheFramebuffer : Prop :=
  ∀ (x y : RegNum) (n : Nibble) (s t : State), s.fault = 0 → exec (.drw x y n) s = .next t → t.fault = 0 →
    (t.reg x).toNat % 64 = (s.reg x).toNat % 64 → (t.reg y).toNat % 32 = (s.reg y).toNat % 32 →
    ∃ u, exec (.drw x y n) t = .next u ∧ u.fault = 0 ∧ u.video = s.video ∧
      (u.reg 15 = 1 ↔ ∃ L, Covered s x y n L ∧ s.video.pixel L = false)

/-! ## Keypad and timers -/

/-- R180 and R181: `SKP` and `SKNP` take `KEY_RANGE` when `Vx > 15`; otherwise they add 2 to `pc` when key `Vx` is
pressed, or is not, and change nothing else. -/
def Obligations.SkipsOnAKey : Prop :=
  ∀ x : RegNum, Decodes (0xE09E + 0x100 * x.val) (.skp x) ∧ Decodes (0xE0A1 + 0x100 * x.val) (.sknp x) ∧
    ∀ s : State,
      (15 < (s.reg x).toNat → Faults (.skp x) s 5 ∧ Faults (.sknp x) s 5) ∧
      ((s.reg x).toNat ≤ 15 →
        (∃ t, exec (.skp x) s = .next t ∧ OnlyPc s t ∧
          t.pc.toNat = if s.keys.getLsbD (s.reg x).toNat then (s.pc.toNat + 2) % 65536 else s.pc.toNat) ∧
        (∃ t, exec (.sknp x) s = .next t ∧ OnlyPc s t ∧
          t.pc.toNat = if s.keys.getLsbD (s.reg x).toNat then s.pc.toNat else (s.pc.toNat + 2) % 65536))

/-- R182: `LD Vx, DT` reads the delay timer as it is before this cycle's tick and does not change it; the tick at the
end of the cycle then lowers the timer and not the register. -/
def Obligations.DelayTimerIsRead : Prop :=
  ∀ x : RegNum, Decodes (0xF007 + 0x100 * x.val) (.ldVxDt x) ∧
    ∀ s : State, ∃ t, exec (.ldVxDt x) s = .next t ∧ OnlyRegs s t ∧
      (∀ z, t.reg z = if z = x then s.delayTimer else s.reg z) ∧
      (s.fault = 0 → t.endCycle.reg x = s.delayTimer ∧
        t.endCycle.delayTimer.toNat = s.delayTimer.toNat - 1)

/-- R183: `LD Vx, K` with no key pressed takes `pc` back by 2 and changes nothing else, and the cycle ticks the timers
all the same; otherwise `Vx` receives the least pressed key. -/
def Obligations.KeyWaitTakesTheLeastKey : Prop :=
  ∀ x : RegNum, Decodes (0xF00A + 0x100 * x.val) (.ldVxK x) ∧
    ∀ s : State,
      (s.keys = 0 → ∃ t, exec (.ldVxK x) s = .next t ∧ OnlyPc s t ∧
        (t.pc.toNat : Int) = (s.pc.toNat - 2) % 65536 ∧
        (s.fault = 0 → t.endCycle.delayTimer.toNat = s.delayTimer.toNat - 1 ∧
          t.endCycle.soundTimer.toNat = s.soundTimer.toNat - 1)) ∧
      (∀ k : Fin 16, s.keys.getLsbD k.val = true → (∀ j : Fin 16, j < k → s.keys.getLsbD j.val = false) →
        ∃ t, exec (.ldVxK x) s = .next t ∧ OnlyRegs s t ∧ (t.reg x).toNat = k.val ∧
          ∀ z, z ≠ x → t.reg z = s.reg z)

/-- R184 and R185: `LD DT, Vx` and `LD ST, Vx` write their timer and nothing else, and at the end of the cycle that
timer is one less (0 when `Vx = 0`). -/
def Obligations.TimersAreWritten : Prop :=
  ∀ x : RegNum, Decodes (0xF015 + 0x100 * x.val) (.ldDtVx x) ∧ Decodes (0xF018 + 0x100 * x.val) (.ldStVx x) ∧
    ∀ s : State,
      (∃ t, exec (.ldDtVx x) s = .next t ∧ t.delayTimer = s.reg x ∧ { t with delayTimer := s.delayTimer } = s ∧
        (s.fault = 0 → t.endCycle.delayTimer.toNat = (s.reg x).toNat - 1)) ∧
      (∃ t, exec (.ldStVx x) s = .next t ∧ t.soundTimer = s.reg x ∧ { t with soundTimer := s.soundTimer } = s ∧
        (s.fault = 0 → t.endCycle.soundTimer.toNat = (s.reg x).toNat - 1))

/-! ## Reset and load -/

/-- R46: reset leads from every state to the state of the table. The glyph bytes are those of the parameter `GLYPHS`,
whatever they are, glyph `d` at `0x050 + 5 * d` (R33); every byte outside them is 0. The counter of the free inputs,
the model's own, is not reset (model's choice, assumption log 20). -/
def Obligations.ResetGivesTheStatedValues : Prop :=
  (∀ s : State, { hostReset s with cycle := 0 } = State.reset) ∧
  (∀ z, State.reset.reg z = 0) ∧ State.reset.pc = 0x200 ∧ State.reset.index = 0 ∧
  (∀ k : Fin 16, State.reset.stack[k] = 0) ∧ State.reset.sp = 0 ∧
  State.reset.delayTimer = 0 ∧ State.reset.soundTimer = 0 ∧
  (∀ (d : Fin 16) (j : Fin 5), State.reset.mem.read (0x050 + 5 * d.val + j.val) = Config.glyphs[5 * d.val + j.val]) ∧
  (∀ a ≤ 0xFFF, a < 0x050 ∨ 0x09F < a → State.reset.mem.read a = 0) ∧
  (∀ L ≤ 2047, State.reset.video.pixel L = false) ∧
  State.reset.opcode = 0 ∧ State.reset.running = true ∧ State.reset.fault = 0 ∧ State.reset.keys = 0

/-- R44: `load(image)` between reset and the first cycle copies at most 3584 bytes of the image to 0x200 upward;
every other byte and every other element keeps its value. The premise on memory is an invariant. -/
def Obligations.LoadCopiesTheImage : Prop :=
  ∀ (image : List Byte) (s : State), s.started = false → s.mem.wf = true →
    ∃ t, hostLoad image s = .next t ∧
      (∀ (i : Nat) (b : Byte), i < 3584 → image[i]? = some b → t.mem.read (0x200 + i) = b) ∧
      (∀ a, ¬(0x200 ≤ a ∧ a < 0x200 + min image.length 3584) → t.mem.read a = s.mem.read a) ∧
      OnlyMemory s t

/-! ## Inputs of a cycle -/

/-- R39 and R41: a performed cycle sees the keypad value the host presents for it, or the one left standing, and a byte
drawn for it; no later cycle uses the same draw again, since the counter of the draws (the model's own, assumption log
1, 2 and 20) rises with every cycle and no request of the host lowers it, reset included. Presenting keys writes the
keypad input and nothing else, and no key is pressed after a reset until the host presents one. -/
def Obligations.EveryCycleDrawsItsOwnInputs : Prop :=
  (∀ s t : State, s.running = true → s.fault = 0 → step s = .next t →
    t.keys = (Config.presentedKeys s.cycle).getD s.keys ∧ t.rnd = Config.randomByte s.cycle ∧
      t.cycle = s.cycle + 1) ∧
  ∀ s : State, (hostReset s).cycle = s.cycle ∧ (hostReset s).keys = 0 ∧ (hostStop s).cycle = s.cycle ∧
    (∀ k, (hostPresentKeys k s).keys = k ∧ { hostPresentKeys k s with keys := s.keys } = s) ∧
    ∀ image t, hostLoad image s = .next t → t.cycle = s.cycle ∧ t.keys = s.keys
end

