-- ==== Sys2Proof/Laws/Memory.lean ====
section
/-! SUPPORT. Memory: a read after a write gives what was written and leaves every other address alone, every
operation keeps the canonical form, and equal memories are equal data. -/

namespace Sys2Proof.Machine

/-- An unlisted address of the glyph set reads as its byte of the parameter `GLYPHS` (20_memory.md R51). -/
theorem Memory.resetByte_glyph (k : Nat) (h : k < 80) : Memory.resetByte (0x050 + k) = Config.glyphs[k] := by
  have hk : 0x050 ≤ 0x050 + k ∧ 0x050 + k ≤ 0x09F := by omega
  simp [Memory.resetByte, hk]

/-- An unlisted address outside the glyph set reads as 0 (R51). -/
theorem Memory.resetByte_outside {a : Nat} (h : a < 0x050 ∨ 0x09F < a) : Memory.resetByte a = 0 :=
  dif_neg (by omega)

/-- With the spec's default glyph set, an unlisted glyph byte is the one the table of 10_state.md R33 gives. -/
theorem Memory.resetByte_default (hg : Config.GlyphsAreDefault) (k : Nat) (h : k < 80) :
    some (Memory.resetByte (0x050 + k)) = Config.defaultGlyphs[k]? := by
  rw [Memory.resetByte_glyph k h, ← hg]
  simp [h]

/-- What the canonical form says of a listed first cell. -/
theorem Memory.wfFrom_cons {lo a : Nat} {b : Byte} {m : Memory} :
    Memory.wfFrom lo ((a, b) :: m) = true ↔
      lo ≤ a ∧ a ≤ 0xFFF ∧ b ≠ Memory.resetByte a ∧ Memory.wfFrom (a + 1) m = true := by
  simp [Memory.wfFrom, and_assoc]

theorem Memory.wfFrom_mono {lo lo' : Nat} (h : lo' ≤ lo) : {m : Memory} →
    Memory.wfFrom lo m = true → Memory.wfFrom lo' m = true
  | [], _ => rfl
  | (_, _) :: _, hm => by
    rw [Memory.wfFrom_cons] at hm ⊢
    exact ⟨h.trans hm.1, hm.2⟩

/-- An address below every listed one reads as its reset contents. -/
theorem Memory.read_of_lt {lo a : Nat} (h : a < lo) : {m : Memory} → Memory.wfFrom lo m = true →
    Memory.read m a = Memory.resetByte a
  | [], _ => rfl
  | (a', b') :: m, hm => by
    rw [Memory.wfFrom_cons] at hm
    have hne : a ≠ a' := by omega
    simpa [Memory.read, hne] using Memory.read_of_lt (show a < a' + 1 by omega) hm.2.2.2

/-- A read after `put`: the byte put, and every other address as before. -/
theorem Memory.read_put {lo a : Nat} (b : Byte) (c : Nat) : {m : Memory} → Memory.wfFrom lo m = true →
    Memory.read (Memory.put m a b) c = if c = a then b else Memory.read m c
  | [], _ => by
    by_cases hb : b = Memory.resetByte a <;> by_cases hc : c = a <;> simp [Memory.put, Memory.read, hb, hc]
  | (a', b') :: m, hm => by
    rw [Memory.wfFrom_cons] at hm
    have below : ∀ d, d < a' + 1 → Memory.read m d = Memory.resetByte d :=
      fun d hd => Memory.read_of_lt hd hm.2.2.2
    rcases Nat.lt_trichotomy a a' with h | h | h
    · have hne : a ≠ a' := by omega
      by_cases hb : b = Memory.resetByte a <;> by_cases hc : c = a <;>
        simp_all [Memory.put, Memory.read, below a (by omega)]
    · subst h
      by_cases hb : b = Memory.resetByte a <;> by_cases hc : c = a <;>
        simp_all [Memory.put, Memory.read, below a (by omega)]
    · have h1 : ¬a < a' := by omega
      have h2 : a ≠ a' := by omega
      by_cases hc : c = a'
      · have : c ≠ a := by omega
        simp [Memory.put, Memory.read, h1, h2, hc, Ne.symm h2]
      · simp [Memory.put, Memory.read, h1, h2, hc, Memory.read_put b c hm.2.2.2]

/-- `put` at an address of memory keeps the canonical form. -/
theorem Memory.wfFrom_put {lo a : Nat} (b : Byte) (ha : a ≤ 0xFFF) (hlo : lo ≤ a) : {m : Memory} →
    Memory.wfFrom lo m = true → Memory.wfFrom lo (Memory.put m a b) = true
  | [], _ => by
    by_cases hb : b = Memory.resetByte a <;> simp [Memory.put, Memory.wfFrom, hb, ha, hlo]
  | (a', b') :: m, hm => by
    rw [Memory.wfFrom_cons] at hm
    obtain ⟨h1, h2, h3, h4⟩ := hm
    rcases Nat.lt_trichotomy a a' with h | h | h
    · by_cases hb : b = Memory.resetByte a
      · simpa [Memory.put, h, hb, Memory.wfFrom_cons, h2, h3, h4] using h1
      · simpa [Memory.put, h, hb, Memory.wfFrom_cons, h2, h3, h4, ha] using hlo
    · subst h
      by_cases hb : b = Memory.resetByte a
      · simpa [Memory.put, hb] using Memory.wfFrom_mono (by omega) h4
      · simpa [Memory.put, hb, Memory.wfFrom_cons, ha] using ⟨h1, h4⟩
    · have h5 : ¬a < a' := by omega
      have h6 : a ≠ a' := by omega
      simpa [Memory.put, h5, h6, Memory.wfFrom_cons, h1, h2, h3] using
        Memory.wfFrom_put b ha (show a' + 1 ≤ a by omega) h4

/-- A read after a write in range (20_memory.md R53). -/
theorem Memory.read_write {m : Memory} {a : Nat} (hm : m.wf = true) (ha : a ≤ 0xFFF) (b : Byte) (c : Nat) :
    (m.write a b).read c = if c = a then b else m.read c := by
  simp only [Memory.write, ha, if_true]
  exact Memory.read_put b c hm

theorem Memory.wf_write {m : Memory} (hm : m.wf = true) (a : Nat) (b : Byte) : (m.write a b).wf = true := by
  by_cases ha : a ≤ 0xFFF
  · simp only [Memory.write, ha, if_true]
    exact Memory.wfFrom_put b ha (Nat.zero_le a) hm
  · simpa [Memory.write, ha] using hm

theorem Memory.wf_writeBytes : (bs : List Byte) → {m : Memory} → (a : Nat) → m.wf = true →
    (m.writeBytes a bs).wf = true
  | [], _, _, hm => hm
  | b :: bs, _, a, hm => Memory.wf_writeBytes bs (a + 1) (Memory.wf_write hm a b)

/-- A read after storing a list of bytes that fits in memory: the `i`-th byte at `a + i`, every address outside the
stored bytes as before. -/
theorem Memory.read_writeBytes : (bs : List Byte) → {m : Memory} → {a : Nat} → m.wf = true →
    a + bs.length ≤ 0x1000 → (c : Nat) →
    (m.writeBytes a bs).read c = if h : a ≤ c ∧ c < a + bs.length then bs[c - a]'(by omega) else m.read c
  | [], _, a, _, _, c => by
    have : ¬(a ≤ c ∧ c < a) := by omega
    simp [Memory.writeBytes, this]
  | b :: bs, m, a, hm, hl, c => by
    simp only [List.length_cons] at hl
    rw [Memory.writeBytes, Memory.read_writeBytes bs (Memory.wf_write hm a b) (by omega) c,
      Memory.read_write hm (by omega)]
    by_cases h1 : a + 1 ≤ c ∧ c < a + 1 + bs.length
    · have h2 : a ≤ c ∧ c < a + (b :: bs).length := by simp only [List.length_cons]; omega
      have h3 : c - a = c - (a + 1) + 1 := by omega
      simp only [h1, h2, and_self, dite_true, h3, List.getElem_cons_succ]
    · by_cases h2 : c = a
      · subst h2; simp
      · have h3 : ¬(a ≤ c ∧ c < a + (b :: bs).length) := by simp only [List.length_cons]; omega
        simp only [h1, h2, h3, dite_false, if_false]

/-- Storing bytes leaves every address outside them alone, wherever they lie. -/
theorem Memory.read_writeBytes_outside : (bs : List Byte) → {m : Memory} → {a : Nat} → m.wf = true → {c : Nat} →
    ¬(a ≤ c ∧ c < a + bs.length) → (m.writeBytes a bs).read c = m.read c
  | [], _, _, _, _, _ => rfl
  | b :: bs, m, a, hm, c, h => by
    simp only [List.length_cons] at h
    rw [Memory.writeBytes, Memory.read_writeBytes_outside bs (Memory.wf_write hm a b) (by omega)]
    by_cases ha : a ≤ 0xFFF
    · rw [Memory.read_write hm ha, if_neg (by omega)]
    · simp [Memory.write, ha]

@[simp] theorem Memory.length_readBytes (m : Memory) (a n : Nat) : (m.readBytes a n).length = n := by
  simp [Memory.readBytes]

@[simp] theorem Memory.getElem_readBytes (m : Memory) (a n i : Nat) (h : i < (m.readBytes a n).length) :
    (m.readBytes a n)[i] = m.read (a + i) := by
  simp [Memory.readBytes]

/-- Two canonical memories that read alike at every address are equal data. -/
theorem Memory.ext_of_read {lo : Nat} : {m m' : Memory} → Memory.wfFrom lo m = true → Memory.wfFrom lo m' = true →
    (∀ a, Memory.read m a = Memory.read m' a) → m = m'
  | [], [], _, _, _ => rfl
  | [], (a, b) :: m', _, h', e => by
    rw [Memory.wfFrom_cons] at h'
    exact absurd (by simpa [Memory.read] using (e a).symm) h'.2.2.1
  | (a, b) :: m, [], h, _, e => by
    rw [Memory.wfFrom_cons] at h
    exact absurd (by simpa [Memory.read] using e a) h.2.2.1
  | (a, b) :: m, (a', b') :: m', h, h', e => by
    have hm := h
    have hm' := h'
    rw [Memory.wfFrom_cons] at h h'
    have haa : a = a' := by
      rcases Nat.lt_trichotomy a a' with hlt | heq | hlt
      · have r := Memory.read_of_lt (m := (a', b') :: m') (lo := a') hlt
          (Memory.wfFrom_cons.2 ⟨le_rfl, h'.2⟩)
        have := e a
        rw [r] at this
        exact absurd (by simpa [Memory.read] using this) h.2.2.1
      · exact heq
      · have r := Memory.read_of_lt (m := (a, b) :: m) (lo := a) hlt (Memory.wfFrom_cons.2 ⟨le_rfl, h.2⟩)
        have := e a'
        rw [r] at this
        exact absurd (by simpa [Memory.read] using this.symm) h'.2.2.1
    subst haa
    have hbb : b = b' := by simpa [Memory.read] using e a
    subst hbb
    have ht : m = m' := Memory.ext_of_read h.2.2.2 h'.2.2.2 fun c => by
      by_cases hc : c = a
      · subst hc
        rw [Memory.read_of_lt (Nat.lt_succ_self c) h.2.2.2, Memory.read_of_lt (Nat.lt_succ_self c) h'.2.2.2]
      · simpa [Memory.read, hc] using e c
    rw [ht]

/-- The memory of the reset state is canonical: it lists nothing. -/
theorem State.wf_reset : State.reset.mem.wf = true := rfl

end Sys2Proof.Machine
end

