-- ==== Sys2Proof/Laws/State.lean ====
section
/-! SUPPORT. One lemma per field per update of the state, true by rfl, so that no later proof unfolds a record
update. -/

namespace Sys2Proof.Machine

variable (s : State)

/-! ### `setReg` -/

@[simp] theorem State.setReg_v (x : RegNum) (b : Byte) : (s.setReg x b).v = s.v.set x.val b := rfl
@[simp] theorem State.setReg_pc (x : RegNum) (b : Byte) : (s.setReg x b).pc = s.pc := rfl
@[simp] theorem State.setReg_index (x : RegNum) (b : Byte) : (s.setReg x b).index = s.index := rfl
@[simp] theorem State.setReg_stack (x : RegNum) (b : Byte) : (s.setReg x b).stack = s.stack := rfl
@[simp] theorem State.setReg_sp (x : RegNum) (b : Byte) : (s.setReg x b).sp = s.sp := rfl
@[simp] theorem State.setReg_delayTimer (x : RegNum) (b : Byte) : (s.setReg x b).delayTimer = s.delayTimer := rfl
@[simp] theorem State.setReg_soundTimer (x : RegNum) (b : Byte) : (s.setReg x b).soundTimer = s.soundTimer := rfl
@[simp] theorem State.setReg_mem (x : RegNum) (b : Byte) : (s.setReg x b).mem = s.mem := rfl
@[simp] theorem State.setReg_video (x : RegNum) (b : Byte) : (s.setReg x b).video = s.video := rfl
@[simp] theorem State.setReg_opcode (x : RegNum) (b : Byte) : (s.setReg x b).opcode = s.opcode := rfl
@[simp] theorem State.setReg_running (x : RegNum) (b : Byte) : (s.setReg x b).running = s.running := rfl
@[simp] theorem State.setReg_fault (x : RegNum) (b : Byte) : (s.setReg x b).fault = s.fault := rfl
@[simp] theorem State.setReg_keys (x : RegNum) (b : Byte) : (s.setReg x b).keys = s.keys := rfl
@[simp] theorem State.setReg_rnd (x : RegNum) (b : Byte) : (s.setReg x b).rnd = s.rnd := rfl
@[simp] theorem State.setReg_cycle (x : RegNum) (b : Byte) : (s.setReg x b).cycle = s.cycle := rfl
@[simp] theorem State.setReg_report (x : RegNum) (b : Byte) : (s.setReg x b).report = s.report := rfl
@[simp] theorem State.setReg_started (x : RegNum) (b : Byte) : (s.setReg x b).started = s.started := rfl

/-! ### `setRegThenFlag` -/

@[simp] theorem State.setRegThenFlag_v (x : RegNum) (r f : Byte) : (s.setRegThenFlag x r f).v = (s.v.set x.val r).set 15 f := rfl
@[simp] theorem State.setRegThenFlag_pc (x : RegNum) (r f : Byte) : (s.setRegThenFlag x r f).pc = s.pc := rfl
@[simp] theorem State.setRegThenFlag_index (x : RegNum) (r f : Byte) : (s.setRegThenFlag x r f).index = s.index := rfl
@[simp] theorem State.setRegThenFlag_stack (x : RegNum) (r f : Byte) : (s.setRegThenFlag x r f).stack = s.stack := rfl
@[simp] theorem State.setRegThenFlag_sp (x : RegNum) (r f : Byte) : (s.setRegThenFlag x r f).sp = s.sp := rfl
@[simp] theorem State.setRegThenFlag_delayTimer (x : RegNum) (r f : Byte) : (s.setRegThenFlag x r f).delayTimer = s.delayTimer := rfl
@[simp] theorem State.setRegThenFlag_soundTimer (x : RegNum) (r f : Byte) : (s.setRegThenFlag x r f).soundTimer = s.soundTimer := rfl
@[simp] theorem State.setRegThenFlag_mem (x : RegNum) (r f : Byte) : (s.setRegThenFlag x r f).mem = s.mem := rfl
@[simp] theorem State.setRegThenFlag_video (x : RegNum) (r f : Byte) : (s.setRegThenFlag x r f).video = s.video := rfl
@[simp] theorem State.setRegThenFlag_opcode (x : RegNum) (r f : Byte) : (s.setRegThenFlag x r f).opcode = s.opcode := rfl
@[simp] theorem State.setRegThenFlag_running (x : RegNum) (r f : Byte) : (s.setRegThenFlag x r f).running = s.running := rfl
@[simp] theorem State.setRegThenFlag_fault (x : RegNum) (r f : Byte) : (s.setRegThenFlag x r f).fault = s.fault := rfl
@[simp] theorem State.setRegThenFlag_keys (x : RegNum) (r f : Byte) : (s.setRegThenFlag x r f).keys = s.keys := rfl
@[simp] theorem State.setRegThenFlag_rnd (x : RegNum) (r f : Byte) : (s.setRegThenFlag x r f).rnd = s.rnd := rfl
@[simp] theorem State.setRegThenFlag_cycle (x : RegNum) (r f : Byte) : (s.setRegThenFlag x r f).cycle = s.cycle := rfl
@[simp] theorem State.setRegThenFlag_report (x : RegNum) (r f : Byte) : (s.setRegThenFlag x r f).report = s.report := rfl
@[simp] theorem State.setRegThenFlag_started (x : RegNum) (r f : Byte) : (s.setRegThenFlag x r f).started = s.started := rfl

/-! ### `raise` -/

@[simp] theorem raise_v (c : FaultCause) : (raise c s).v = s.v := rfl
@[simp] theorem raise_pc (c : FaultCause) : (raise c s).pc = s.pc := rfl
@[simp] theorem raise_index (c : FaultCause) : (raise c s).index = s.index := rfl
@[simp] theorem raise_stack (c : FaultCause) : (raise c s).stack = s.stack := rfl
@[simp] theorem raise_sp (c : FaultCause) : (raise c s).sp = s.sp := rfl
@[simp] theorem raise_delayTimer (c : FaultCause) : (raise c s).delayTimer = s.delayTimer := rfl
@[simp] theorem raise_soundTimer (c : FaultCause) : (raise c s).soundTimer = s.soundTimer := rfl
@[simp] theorem raise_mem (c : FaultCause) : (raise c s).mem = s.mem := rfl
@[simp] theorem raise_video (c : FaultCause) : (raise c s).video = s.video := rfl
@[simp] theorem raise_opcode (c : FaultCause) : (raise c s).opcode = s.opcode := rfl
@[simp] theorem raise_running (c : FaultCause) : (raise c s).running = false := rfl
@[simp] theorem raise_fault (c : FaultCause) : (raise c s).fault = c.code := rfl
@[simp] theorem raise_keys (c : FaultCause) : (raise c s).keys = s.keys := rfl
@[simp] theorem raise_rnd (c : FaultCause) : (raise c s).rnd = s.rnd := rfl
@[simp] theorem raise_cycle (c : FaultCause) : (raise c s).cycle = s.cycle := rfl
@[simp] theorem raise_report (c : FaultCause) : (raise c s).report = s.report := rfl
@[simp] theorem raise_started (c : FaultCause) : (raise c s).started = s.started := rfl

/-! ### `skipIf` -/

@[simp] theorem State.skipIf_v (c : Bool) : (State.skipIf c s).v = s.v := rfl
@[simp] theorem State.skipIf_pc (c : Bool) : (State.skipIf c s).pc = if c then s.pc + 2 else s.pc := rfl
@[simp] theorem State.skipIf_index (c : Bool) : (State.skipIf c s).index = s.index := rfl
@[simp] theorem State.skipIf_stack (c : Bool) : (State.skipIf c s).stack = s.stack := rfl
@[simp] theorem State.skipIf_sp (c : Bool) : (State.skipIf c s).sp = s.sp := rfl
@[simp] theorem State.skipIf_delayTimer (c : Bool) : (State.skipIf c s).delayTimer = s.delayTimer := rfl
@[simp] theorem State.skipIf_soundTimer (c : Bool) : (State.skipIf c s).soundTimer = s.soundTimer := rfl
@[simp] theorem State.skipIf_mem (c : Bool) : (State.skipIf c s).mem = s.mem := rfl
@[simp] theorem State.skipIf_video (c : Bool) : (State.skipIf c s).video = s.video := rfl
@[simp] theorem State.skipIf_opcode (c : Bool) : (State.skipIf c s).opcode = s.opcode := rfl
@[simp] theorem State.skipIf_running (c : Bool) : (State.skipIf c s).running = s.running := rfl
@[simp] theorem State.skipIf_fault (c : Bool) : (State.skipIf c s).fault = s.fault := rfl
@[simp] theorem State.skipIf_keys (c : Bool) : (State.skipIf c s).keys = s.keys := rfl
@[simp] theorem State.skipIf_rnd (c : Bool) : (State.skipIf c s).rnd = s.rnd := rfl
@[simp] theorem State.skipIf_cycle (c : Bool) : (State.skipIf c s).cycle = s.cycle := rfl
@[simp] theorem State.skipIf_report (c : Bool) : (State.skipIf c s).report = s.report := rfl
@[simp] theorem State.skipIf_started (c : Bool) : (State.skipIf c s).started = s.started := rfl

/-! ### `jump` -/

@[simp] theorem State.jump_v (a : Word) : (State.jump a s).v = s.v := rfl
@[simp] theorem State.jump_pc (a : Word) : (State.jump a s).pc = a := rfl
@[simp] theorem State.jump_index (a : Word) : (State.jump a s).index = s.index := rfl
@[simp] theorem State.jump_stack (a : Word) : (State.jump a s).stack = s.stack := rfl
@[simp] theorem State.jump_sp (a : Word) : (State.jump a s).sp = s.sp := rfl
@[simp] theorem State.jump_delayTimer (a : Word) : (State.jump a s).delayTimer = s.delayTimer := rfl
@[simp] theorem State.jump_soundTimer (a : Word) : (State.jump a s).soundTimer = s.soundTimer := rfl
@[simp] theorem State.jump_mem (a : Word) : (State.jump a s).mem = s.mem := rfl
@[simp] theorem State.jump_video (a : Word) : (State.jump a s).video = s.video := rfl
@[simp] theorem State.jump_opcode (a : Word) : (State.jump a s).opcode = s.opcode := rfl
@[simp] theorem State.jump_running (a : Word) : (State.jump a s).running = s.running := rfl
@[simp] theorem State.jump_fault (a : Word) : (State.jump a s).fault = s.fault := rfl
@[simp] theorem State.jump_keys (a : Word) : (State.jump a s).keys = s.keys := rfl
@[simp] theorem State.jump_rnd (a : Word) : (State.jump a s).rnd = s.rnd := rfl
@[simp] theorem State.jump_cycle (a : Word) : (State.jump a s).cycle = s.cycle := rfl
@[simp] theorem State.jump_report (a : Word) : (State.jump a s).report = s.report := rfl
@[simp] theorem State.jump_started (a : Word) : (State.jump a s).started = s.started := rfl

/-! ### `push` -/

@[simp] theorem State.push_v (a : Word) : (State.push a s).v = s.v := rfl
@[simp] theorem State.push_pc (a : Word) : (State.push a s).pc = s.pc := rfl
@[simp] theorem State.push_index (a : Word) : (State.push a s).index = s.index := rfl
@[simp] theorem State.push_stack (a : Word) : (State.push a s).stack = s.stack.setIfInBounds s.sp.toNat a := rfl
@[simp] theorem State.push_sp (a : Word) : (State.push a s).sp = s.sp + 1 := rfl
@[simp] theorem State.push_delayTimer (a : Word) : (State.push a s).delayTimer = s.delayTimer := rfl
@[simp] theorem State.push_soundTimer (a : Word) : (State.push a s).soundTimer = s.soundTimer := rfl
@[simp] theorem State.push_mem (a : Word) : (State.push a s).mem = s.mem := rfl
@[simp] theorem State.push_video (a : Word) : (State.push a s).video = s.video := rfl
@[simp] theorem State.push_opcode (a : Word) : (State.push a s).opcode = s.opcode := rfl
@[simp] theorem State.push_running (a : Word) : (State.push a s).running = s.running := rfl
@[simp] theorem State.push_fault (a : Word) : (State.push a s).fault = s.fault := rfl
@[simp] theorem State.push_keys (a : Word) : (State.push a s).keys = s.keys := rfl
@[simp] theorem State.push_rnd (a : Word) : (State.push a s).rnd = s.rnd := rfl
@[simp] theorem State.push_cycle (a : Word) : (State.push a s).cycle = s.cycle := rfl
@[simp] theorem State.push_report (a : Word) : (State.push a s).report = s.report := rfl
@[simp] theorem State.push_started (a : Word) : (State.push a s).started = s.started := rfl

/-! ### `sampleInputs` -/

@[simp] theorem State.sampleInputs_v : (s.sampleInputs).v = s.v := rfl
@[simp] theorem State.sampleInputs_pc : (s.sampleInputs).pc = s.pc := rfl
@[simp] theorem State.sampleInputs_index : (s.sampleInputs).index = s.index := rfl
@[simp] theorem State.sampleInputs_stack : (s.sampleInputs).stack = s.stack := rfl
@[simp] theorem State.sampleInputs_sp : (s.sampleInputs).sp = s.sp := rfl
@[simp] theorem State.sampleInputs_delayTimer : (s.sampleInputs).delayTimer = s.delayTimer := rfl
@[simp] theorem State.sampleInputs_soundTimer : (s.sampleInputs).soundTimer = s.soundTimer := rfl
@[simp] theorem State.sampleInputs_mem : (s.sampleInputs).mem = s.mem := rfl
@[simp] theorem State.sampleInputs_video : (s.sampleInputs).video = s.video := rfl
@[simp] theorem State.sampleInputs_opcode : (s.sampleInputs).opcode = s.opcode := rfl
@[simp] theorem State.sampleInputs_running : (s.sampleInputs).running = s.running := rfl
@[simp] theorem State.sampleInputs_fault : (s.sampleInputs).fault = s.fault := rfl
@[simp] theorem State.sampleInputs_keys : (s.sampleInputs).keys = (Config.presentedKeys s.cycle).getD s.keys := rfl
@[simp] theorem State.sampleInputs_rnd : (s.sampleInputs).rnd = Config.randomByte s.cycle := rfl
@[simp] theorem State.sampleInputs_cycle : (s.sampleInputs).cycle = s.cycle + 1 := rfl
@[simp] theorem State.sampleInputs_report : (s.sampleInputs).report = none := rfl
@[simp] theorem State.sampleInputs_started : (s.sampleInputs).started = true := rfl

/-! ### `fetched` -/

@[simp] theorem State.fetched_v : (s.fetched).v = s.v := rfl
@[simp] theorem State.fetched_pc : (s.fetched).pc = s.pc + 2 := rfl
@[simp] theorem State.fetched_index : (s.fetched).index = s.index := rfl
@[simp] theorem State.fetched_stack : (s.fetched).stack = s.stack := rfl
@[simp] theorem State.fetched_sp : (s.fetched).sp = s.sp := rfl
@[simp] theorem State.fetched_delayTimer : (s.fetched).delayTimer = s.delayTimer := rfl
@[simp] theorem State.fetched_soundTimer : (s.fetched).soundTimer = s.soundTimer := rfl
@[simp] theorem State.fetched_mem : (s.fetched).mem = s.mem := rfl
@[simp] theorem State.fetched_video : (s.fetched).video = s.video := rfl
@[simp] theorem State.fetched_opcode : (s.fetched).opcode = s.fetchWord := rfl
@[simp] theorem State.fetched_running : (s.fetched).running = s.running := rfl
@[simp] theorem State.fetched_fault : (s.fetched).fault = s.fault := rfl
@[simp] theorem State.fetched_keys : (s.fetched).keys = s.keys := rfl
@[simp] theorem State.fetched_rnd : (s.fetched).rnd = s.rnd := rfl
@[simp] theorem State.fetched_cycle : (s.fetched).cycle = s.cycle := rfl
@[simp] theorem State.fetched_report : (s.fetched).report = s.report := rfl
@[simp] theorem State.fetched_started : (s.fetched).started = s.started := rfl

/-! ### `tick` -/

@[simp] theorem State.tick_v : (s.tick).v = s.v := rfl
@[simp] theorem State.tick_pc : (s.tick).pc = s.pc := rfl
@[simp] theorem State.tick_index : (s.tick).index = s.index := rfl
@[simp] theorem State.tick_stack : (s.tick).stack = s.stack := rfl
@[simp] theorem State.tick_sp : (s.tick).sp = s.sp := rfl
@[simp] theorem State.tick_delayTimer : (s.tick).delayTimer = tickTimer s.delayTimer := rfl
@[simp] theorem State.tick_soundTimer : (s.tick).soundTimer = tickTimer s.soundTimer := rfl
@[simp] theorem State.tick_mem : (s.tick).mem = s.mem := rfl
@[simp] theorem State.tick_video : (s.tick).video = s.video := rfl
@[simp] theorem State.tick_opcode : (s.tick).opcode = s.opcode := rfl
@[simp] theorem State.tick_running : (s.tick).running = s.running := rfl
@[simp] theorem State.tick_fault : (s.tick).fault = s.fault := rfl
@[simp] theorem State.tick_keys : (s.tick).keys = s.keys := rfl
@[simp] theorem State.tick_rnd : (s.tick).rnd = s.rnd := rfl
@[simp] theorem State.tick_cycle : (s.tick).cycle = s.cycle := rfl
@[simp] theorem State.tick_report : (s.tick).report = s.report := rfl
@[simp] theorem State.tick_started : (s.tick).started = s.started := rfl

/-! ### `reportUnknown` -/

@[simp] theorem State.reportUnknown_v : (s.reportUnknown).v = s.v := rfl
@[simp] theorem State.reportUnknown_pc : (s.reportUnknown).pc = s.pc := rfl
@[simp] theorem State.reportUnknown_index : (s.reportUnknown).index = s.index := rfl
@[simp] theorem State.reportUnknown_stack : (s.reportUnknown).stack = s.stack := rfl
@[simp] theorem State.reportUnknown_sp : (s.reportUnknown).sp = s.sp := rfl
@[simp] theorem State.reportUnknown_delayTimer : (s.reportUnknown).delayTimer = s.delayTimer := rfl
@[simp] theorem State.reportUnknown_soundTimer : (s.reportUnknown).soundTimer = s.soundTimer := rfl
@[simp] theorem State.reportUnknown_mem : (s.reportUnknown).mem = s.mem := rfl
@[simp] theorem State.reportUnknown_video : (s.reportUnknown).video = s.video := rfl
@[simp] theorem State.reportUnknown_opcode : (s.reportUnknown).opcode = s.opcode := rfl
@[simp] theorem State.reportUnknown_running : (s.reportUnknown).running = s.running := rfl
@[simp] theorem State.reportUnknown_fault : (s.reportUnknown).fault = s.fault := rfl
@[simp] theorem State.reportUnknown_keys : (s.reportUnknown).keys = s.keys := rfl
@[simp] theorem State.reportUnknown_rnd : (s.reportUnknown).rnd = s.rnd := rfl
@[simp] theorem State.reportUnknown_cycle : (s.reportUnknown).cycle = s.cycle := rfl
@[simp] theorem State.reportUnknown_report : (s.reportUnknown).report = some s.opcode := rfl
@[simp] theorem State.reportUnknown_started : (s.reportUnknown).started = s.started := rfl

/-! ### Registers after an update -/

@[simp] theorem State.reg_setReg (x y : RegNum) (b : Byte) :
    (s.setReg x b).reg y = if y = x then b else s.reg y := by
  simp only [State.reg, State.setReg, Fin.getElem_fin, Vector.getElem_set, Fin.ext_iff, eq_comm]

@[simp] theorem State.reg_setRegThenFlag (x y : RegNum) (r f : Byte) :
    (s.setRegThenFlag x r f).reg y = if y = 15 then f else if y = x then r else s.reg y := by
  simp [State.setRegThenFlag]

/-- A state whose registers are those of `s` reads every register as `s` does. -/
theorem State.reg_congr {s t : State} (h : t.v = s.v) (y : RegNum) : t.reg y = s.reg y := by
  simp [State.reg, h]

@[simp] theorem reg_raise (c : FaultCause) (y : RegNum) : (raise c s).reg y = s.reg y := rfl
@[simp] theorem State.reg_skipIf (c : Bool) (y : RegNum) : (State.skipIf c s).reg y = s.reg y := rfl
@[simp] theorem State.reg_jump (a : Word) (y : RegNum) : (State.jump a s).reg y = s.reg y := rfl
@[simp] theorem State.reg_push (a : Word) (y : RegNum) : (State.push a s).reg y = s.reg y := rfl
@[simp] theorem State.reg_sampleInputs (y : RegNum) : s.sampleInputs.reg y = s.reg y := rfl
@[simp] theorem State.reg_fetched (y : RegNum) : s.fetched.reg y = s.reg y := rfl
@[simp] theorem State.reg_tick (y : RegNum) : s.tick.reg y = s.reg y := rfl
@[simp] theorem State.reg_reportUnknown (y : RegNum) : s.reportUnknown.reg y = s.reg y := rfl

/-- Sampling the inputs does not touch what the fetch reads. -/
@[simp] theorem State.fetchWord_sampleInputs : s.sampleInputs.fetchWord = s.fetchWord := rfl

/-- The register file is the 16 registers: two states that read every register alike hold the same registers. -/
theorem State.v_ext {s t : State} (h : ∀ y : RegNum, t.reg y = s.reg y) : t.v = s.v :=
  Vector.ext fun i hi => h ⟨i, hi⟩

end Sys2Proof.Machine
end

