-- ==== Sys2Proof/Laws/Ops.lean ====
section
/-! SUPPORT. One lemma for each shared operation beside memory and the framebuffer: the block load and store, the
stack, the keypad, the flag values, the end of a cycle. -/

namespace Sys2Proof.Machine

/-! ### Block store and block load -/

@[simp] theorem State.length_regsUpTo (s : State) (x : RegNum) : (s.regsUpTo x).length = x.val + 1 := by
  have := x.isLt
  simp only [State.regsUpTo, List.length_take, Vector.length_toList]
  omega

/-- The `i`-th byte `LD [I], Vx` stores is `V[i]` (42_index_memory.md R154). -/
theorem State.getElem_regsUpTo (s : State) (x : RegNum) (i : Nat) (h : i < (s.regsUpTo x).length) :
    (s.regsUpTo x)[i] = s.reg ⟨i, by have := x.isLt; simp at h; omega⟩ := by
  simp [State.regsUpTo, State.reg]

@[simp] theorem length_bcdDigits (b : Byte) : (bcdDigits b).length = 3 := rfl

/-- The registers `LD Vx, [I]` leaves: those up to `x` from memory, the others as before (R155). -/
theorem State.reg_mapIdx (s : State) (x y : RegNum) :
    State.reg { s with v := s.v.mapIdx fun i old => if i ≤ x.val then s.mem.read (s.ea i) else old } y =
      if y ≤ x then s.mem.read (s.ea y.val) else s.reg y := by
  simp only [State.reg, Fin.getElem_fin, Vector.getElem_mapIdx, Fin.le_def]

@[simp] theorem beyondMemory_eq_true (a : Nat) : beyondMemory a = true ↔ 0xFFF < a := by
  simp [beyondMemory]

@[simp] theorem beyondMemory_eq_false (a : Nat) : beyondMemory a = false ↔ a ≤ 0xFFF := by
  simp [beyondMemory]

/-! ### Stack -/

/-- The stack has entries 0 to 15 and no other (10_state.md R26). -/
theorem State.stackEntry_eq (s : State) (k : Nat) :
    s.stackEntry k = if h : k < 16 then some s.stack[k] else none := by
  by_cases h : k < 16 <;> simp [State.stackEntry, h]

/-- The entry just pushed is the address pushed, every other entry is as before. -/
theorem State.stackEntry_push (s : State) (a : Word) (k : Nat) (h : s.sp.toNat < 16) :
    (State.push a s).stackEntry k = if k = s.sp.toNat then some a else s.stackEntry k := by
  by_cases e : k = s.sp.toNat
  · subst e; simp [State.stackEntry, State.push, h]
  · simp [State.stackEntry, State.push, e, Ne.symm e]

/-! ### Keypad -/

/-- No key is found exactly when the keypad reads zero (44_keypad_timers.md R183). -/
theorem State.lowestKey_eq_none (s : State) : s.lowestKey = none ↔ s.keys = 0 := by
  rw [State.lowestKey, List.find?_eq_none]
  constructor
  · intro h
    refine BitVec.eq_of_getLsbD_eq fun i hi => ?_
    have := h i (List.mem_range.2 hi)
    simpa [State.keyDown] using this
  · intro h k _
    simp [State.keyDown, h]

/-- The key found is pressed and no lower one is (R183). -/
theorem State.lowestKey_eq_some (s : State) (k : Nat) :
    s.lowestKey = some k ↔ k < 16 ∧ s.keyDown k = true ∧ ∀ j < k, s.keyDown j = false := by
  rw [State.lowestKey, List.find?_range_eq_some]
  simp only [Bool.not_eq_true', List.mem_range]
  tauto

/-! ### Flags -/

/-- A flag is 0 or 1, never another value (10_state.md R22). -/
theorem flagOf_eq (c : Bool) : flagOf c = 1 ∧ c = true ∨ flagOf c = 0 ∧ c = false := by
  cases c <;> simp [flagOf]

/-! ### The cycle -/

/-- A request is honoured exactly when the core runs and has no fault (10_state.md R40). -/
theorem State.honours_iff (s : State) : s.honours = true ↔ s.running = true ∧ s.fault = 0 := by
  simp [State.honours]

/-- A timer's tick as a number: one less, and 0 stays 0 (60_exceptions.md R221). -/
theorem toNat_tickTimer (t : Byte) : (tickTimer t).toNat = t.toNat - 1 := by
  by_cases h : t = 0
  · simp [tickTimer, h]
  · have h0 : t.toNat ≠ 0 := fun e => h (BitVec.eq_of_toNat_eq (by simpa using e))
    have := t.isLt
    simp only [tickTimer, h, if_false, BitVec.toNat_sub]
    simp
    omega

/-- Every cause code is one of 1 to 6 (R205). -/
theorem FaultCause.code_range (c : FaultCause) : 1 ≤ c.code.toNat ∧ c.code.toNat ≤ 6 := by
  cases c <;> decide

@[simp] theorem FaultCause.code_ne_zero (c : FaultCause) : c.code ≠ 0 := by
  cases c <;> decide

/-- The end of a cycle that took no fault is the tick. -/
theorem State.endCycle_of_noFault {s : State} (h : s.fault = 0) : s.endCycle = s.tick := if_pos h

/-- A cycle that took a fault does not tick (R206). -/
theorem State.endCycle_of_fault {s : State} (h : s.fault ≠ 0) : s.endCycle = s := if_neg h

/-- The end of a cycle touches the two timers only. -/
theorem State.endCycle_frame (s : State) :
    { s.endCycle with delayTimer := s.delayTimer, soundTimer := s.soundTimer } = s := by
  by_cases h : s.fault = 0
  · rw [State.endCycle_of_noFault h]; rfl
  · rw [State.endCycle_of_fault h]

/-- What a cycle makes of an instruction's outcome, if it answers a next state. -/
theorem afterInstr_next {o : Host.Outcome State Fault Refusal} {t : State} (h : afterInstr o = .next t) :
    ∃ u, o = .next u ∧ t = u.endCycle := by
  cases o with
  | next u => exact ⟨u, rfl, by simpa [afterInstr] using h.symm⟩
  | fault r => simp [afterInstr] at h
  | refused r => simp [afterInstr] at h

end Sys2Proof.Machine
end

