-- ==== Sys2Proof/Laws/Cycle.lean ====
section
/-! SUPPORT. The cycle taken apart once: everything a step can do, so that no later proof unfolds it. -/

namespace Sys2Proof.Machine

/-! ### The end of a cycle, field by field -/

/-- A timer's tick in the words of step 5 of 60_exceptions.md R200: lowered by 1 when it is above 0. -/
theorem tickTimer_eq (b : Byte) : tickTimer b = if b.toNat > 0 then b - 1 else b := by
  by_cases h : b = 0
  · simp [tickTimer, h]
  · have : b.toNat ≠ 0 := fun e => h (BitVec.eq_of_toNat_eq (by simpa using e))
    rw [tickTimer, if_neg h, if_pos (by omega)]

@[simp] theorem State.endCycle_v (s : State) : s.endCycle.v = s.v := by unfold State.endCycle; split <;> rfl
@[simp] theorem State.endCycle_pc (s : State) : s.endCycle.pc = s.pc := by unfold State.endCycle; split <;> rfl
@[simp] theorem State.endCycle_index (s : State) : s.endCycle.index = s.index := by unfold State.endCycle; split <;> rfl
@[simp] theorem State.endCycle_stack (s : State) : s.endCycle.stack = s.stack := by unfold State.endCycle; split <;> rfl
@[simp] theorem State.endCycle_sp (s : State) : s.endCycle.sp = s.sp := by unfold State.endCycle; split <;> rfl
@[simp] theorem State.endCycle_mem (s : State) : s.endCycle.mem = s.mem := by unfold State.endCycle; split <;> rfl
@[simp] theorem State.endCycle_video (s : State) : s.endCycle.video = s.video := by unfold State.endCycle; split <;> rfl
@[simp] theorem State.endCycle_opcode (s : State) : s.endCycle.opcode = s.opcode := by unfold State.endCycle; split <;> rfl
@[simp] theorem State.endCycle_running (s : State) : s.endCycle.running = s.running := by unfold State.endCycle; split <;> rfl
@[simp] theorem State.endCycle_fault (s : State) : s.endCycle.fault = s.fault := by unfold State.endCycle; split <;> rfl
@[simp] theorem State.endCycle_keys (s : State) : s.endCycle.keys = s.keys := by unfold State.endCycle; split <;> rfl
@[simp] theorem State.endCycle_rnd (s : State) : s.endCycle.rnd = s.rnd := by unfold State.endCycle; split <;> rfl
@[simp] theorem State.endCycle_cycle (s : State) : s.endCycle.cycle = s.cycle := by unfold State.endCycle; split <;> rfl
@[simp] theorem State.endCycle_report (s : State) : s.endCycle.report = s.report := by unfold State.endCycle; split <;> rfl
@[simp] theorem State.endCycle_started (s : State) : s.endCycle.started = s.started := by unfold State.endCycle; split <;> rfl

/-! ### The step request and the fetch -/

/-- An honoured request is one cycle on sampled inputs (10_state.md R40). -/
theorem step_of_honoured {s : State} (h1 : s.running = true) (h2 : s.fault = 0) : step s = runCycle s.sampleInputs :=
  if_pos ((State.honours_iff s).2 ⟨h1, h2⟩)

/-- A cycle whose fetch is in range executes the fetched word (R200). -/
theorem step_of_fetch {s : State} (h1 : s.running = true) (h2 : s.fault = 0) (h3 : s.pc.toNat ≤ 0xFFE) :
    step s = execFetched s.sampleInputs.fetched := by
  have h : ¬ s.sampleInputs.pc.toNat > 0xFFE := by simpa using h3
  rw [step_of_honoured h1 h2, runCycle, if_neg h]

/-- A cycle whose fetch is out of range takes `FETCH_RANGE` (R208). -/
theorem step_of_fetchRange {s : State} (h1 : s.running = true) (h2 : s.fault = 0) (h3 : 0xFFE < s.pc.toNat) :
    step s = .next (raise .fetchRange s.sampleInputs) := by
  have h : s.sampleInputs.pc.toNat > 0xFFE := by simpa using h3
  rw [step_of_honoured h1 h2, runCycle, if_pos h]

/-- Everything a cycle that answers a next state can be: a fetch out of range, an instruction run to its end, or an
unknown opcode reported. -/
theorem step_cases {s t : State} (h1 : s.running = true) (h2 : s.fault = 0) (h : step s = .next t) :
    (0xFFE < s.pc.toNat ∧ t = raise .fetchRange s.sampleInputs) ∨
    (s.pc.toNat ≤ 0xFFE ∧ ∃ i u, decode s.fetchWord = .ok i ∧ exec i s.sampleInputs.fetched = .next u ∧
      t = u.endCycle) ∨
    (s.pc.toNat ≤ 0xFFE ∧ (∀ i, decode s.fetchWord ≠ .ok i) ∧ t = s.sampleInputs.fetched.reportUnknown.tick) := by
  rcases Nat.lt_or_ge 0xFFE s.pc.toNat with h3 | h3
  · rw [step_of_fetchRange h1 h2 h3] at h
    cases h
    exact .inl ⟨h3, rfl⟩
  · have e : s.sampleInputs.fetched.opcode = s.fetchWord := rfl
    rw [step_of_fetch h1 h2 h3, execFetched, e] at h
    cases hd : decode s.fetchWord with
    | ok i =>
      rw [hd] at h
      obtain ⟨u, hu, rfl⟩ := afterInstr_next h
      exact .inr (.inl ⟨h3, i, u, rfl, hu, rfl⟩)
    | error e =>
      rw [hd] at h
      cases h
      exact .inr (.inr ⟨h3, by simp, rfl⟩)

/-! ### Skips -/

/-- A skip as a number (40_flow.md R104). -/
theorem State.skipIf_pc_toNat (c : Bool) (s : State) :
    (State.skipIf c s).pc.toNat = if c then (s.pc.toNat + 2) % 65536 else s.pc.toNat := by
  cases c <;> simp [State.skipIf]

/-- A skip writes the program counter and nothing else. -/
theorem State.skipIf_pcOnly (c : Bool) (s : State) : { State.skipIf c s with pc := s.pc } = s := rfl

end Sys2Proof.Machine
end

