-- ==== Sys2Proof/Laws/Decode.lean ====
section
/-! SUPPORT. The fields of the words the encoder builds, and the words their fields rebuild. -/

namespace Sys2Proof

/-! ### Fields of a built word -/

@[simp] theorem opField_wordNNN (op : Nibble) (nnn : Addr12) : opField (wordNNN op nnn) = op := by
  ext i hi; simp [opField, wordNNN, hi]; interval_cases i <;> simp

@[simp] theorem nnnField_wordNNN (op : Nibble) (nnn : Addr12) : nnnField (wordNNN op nnn) = nnn := by
  ext i hi; simp [nnnField, wordNNN, hi]; interval_cases i <;> simp

@[simp] theorem opField_wordXKK (op h : Nibble) (kk : Byte) : opField (wordXKK op h kk) = op := by
  ext i hi; simp [opField, wordXKK, hi]; interval_cases i <;> simp

@[simp] theorem highField_wordXKK (op h : Nibble) (kk : Byte) : highField (wordXKK op h kk) = h := by
  ext i hi; simp [highField, wordXKK, hi]; interval_cases i <;> simp

@[simp] theorem kkField_wordXKK (op h : Nibble) (kk : Byte) : kkField (wordXKK op h kk) = kk := by
  ext i hi; simp [kkField, wordXKK, hi]; interval_cases i <;> simp

@[simp] theorem opField_wordXYN (op h y n : Nibble) : opField (wordXYN op h y n) = op := by
  ext i hi; simp [opField, wordXYN, hi]; interval_cases i <;> simp

@[simp] theorem highField_wordXYN (op h y n : Nibble) : highField (wordXYN op h y n) = h := by
  ext i hi; simp [highField, wordXYN, hi]; interval_cases i <;> simp

@[simp] theorem yField_wordXYN (op h n : Nibble) (y : RegNum) : yField (wordXYN op h (regField y) n) = y := by
  have e : (wordXYN op h (regField y) n).extractLsb' 4 4 = regField y := by
    ext i hi; simp [wordXYN, hi]; interval_cases i <;> simp
  exact congrArg BitVec.toFin e

@[simp] theorem nField_wordXYN (op h y n : Nibble) : nField (wordXYN op h y n) = n := by
  ext i hi; simp [nField, wordXYN, hi]; interval_cases i <;> simp

@[simp] theorem xField_wordXKK (op : Nibble) (x : RegNum) (kk : Byte) :
    xField (wordXKK op (regField x) kk) = x :=
  congrArg BitVec.toFin (highField_wordXKK op (regField x) kk)

@[simp] theorem xField_wordXYN (op y n : Nibble) (x : RegNum) :
    xField (wordXYN op (regField x) y n) = x :=
  congrArg BitVec.toFin (highField_wordXYN op (regField x) y n)

/-! ### A word from its fields -/

@[simp] theorem regField_xField (w : Word) : regField (xField w) = highField w := rfl

theorem wordNNN_fields (w : Word) : wordNNN (opField w) (nnnField w) = w := by
  ext i hi; simp [opField, nnnField, wordNNN, hi]; interval_cases i <;> simp

theorem wordXKK_fields (w : Word) : wordXKK (opField w) (highField w) (kkField w) = w := by
  ext i hi; simp [opField, highField, kkField, wordXKK, hi]; interval_cases i <;> simp

theorem wordXYN_fields (w : Word) :
    wordXYN (opField w) (highField w) (regField (yField w)) (nField w) = w := by
  have e : regField (yField w) = w.extractLsb' 4 4 := rfl
  rw [e]; ext i hi; simp [opField, highField, nField, wordXYN, hi]; interval_cases i <;> simp

/-! ### The keys of a word under the mask of a row (R74) -/

theorem opField_of_mask {w p m : Word} (hm : m &&& 0xF000 = 0xF000) (h : w &&& m = p) : opField w = opField p := by
  subst h
  ext i hi
  have hb := congrArg (fun z : Word => z.getLsbD (12 + i)) hm
  simp at hb
  interval_cases i <;> simp_all [opField]

theorem kkField_of_mask {w p : Word} (h : w &&& 0xF0FF = p) : kkField w = kkField p := by
  subst h; ext i hi; simp [kkField]; interval_cases i <;> simp

theorem nField_of_mask {w p : Word} (h : w &&& 0xF00F = p) : nField w = nField p := by
  subst h; ext i hi; simp [nField]; interval_cases i <;> simp

/-- A 4-bit key is one of the 16 the dispatch lists (R73). -/
theorem nibble_listed (o : Nibble) : o = 0x0 ∨ o = 0x1 ∨ o = 0x2 ∨ o = 0x3 ∨ o = 0x4 ∨ o = 0x5 ∨ o = 0x6 ∨ o = 0x7 ∨
    o = 0x8 ∨ o = 0x9 ∨ o = 0xA ∨ o = 0xB ∨ o = 0xC ∨ o = 0xD ∨ o = 0xE ∨ o = 0xF := by
  revert o; decide

/-! ### A built word as a number -/

/-- Bits put side by side: a field above `k` bits, or-ed with a value of fewer than `k` bits, is their sum. -/
theorem or_shift_toNat {w : Nat} {a b : BitVec w} {k : Nat} (ha : a.toNat * 2 ^ k < 2 ^ w) (hb : b.toNat < 2 ^ k) :
    (a <<< k ||| b).toNat = a.toNat * 2 ^ k + b.toNat := by
  rw [BitVec.toNat_or, BitVec.toNat_shiftLeft, Nat.shiftLeft_eq, Nat.mod_eq_of_lt ha, ← Nat.shiftLeft_eq,
    ← Nat.shiftLeft_add_eq_or_of_lt hb]

theorem toNat_wordNNN (op : Nibble) (nnn : Addr12) :
    (wordNNN op nnn).toNat = 0x1000 * op.toNat + nnn.toNat := by
  have h1 := op.isLt
  have h2 := nnn.isLt
  have e1 : (op.setWidth 16).toNat = op.toNat := by simp; omega
  have e2 : (nnn.setWidth 16).toNat = nnn.toNat := by simp; omega
  rw [wordNNN, or_shift_toNat (by omega) (by omega), e1, e2]
  omega

theorem toNat_wordXKK (op h : Nibble) (kk : Byte) :
    (wordXKK op h kk).toNat = 0x1000 * op.toNat + 0x100 * h.toNat + kk.toNat := by
  have h1 := op.isLt
  have h2 := h.isLt
  have h3 := kk.isLt
  have e1 : (op.setWidth 16).toNat = op.toNat := by simp; omega
  have e2 : (h.setWidth 16).toNat = h.toNat := by simp; omega
  have e3 : (kk.setWidth 16).toNat = kk.toNat := by simp; omega
  have e4 : (h.setWidth 16 <<< 8 ||| kk.setWidth 16 : Word).toNat = h.toNat * 2 ^ 8 + kk.toNat := by
    rw [or_shift_toNat (by omega) (by omega), e2, e3]
  rw [wordXKK, BitVec.or_assoc, or_shift_toNat (by omega) (by omega), e1, e4]
  omega

theorem toNat_wordXYN (op h y n : Nibble) :
    (wordXYN op h y n).toNat = 0x1000 * op.toNat + 0x100 * h.toNat + 0x10 * y.toNat + n.toNat := by
  have h1 := op.isLt
  have h2 := h.isLt
  have h3 := y.isLt
  have h4 := n.isLt
  have e1 : (op.setWidth 16).toNat = op.toNat := by simp; omega
  have e2 : (h.setWidth 16).toNat = h.toNat := by simp; omega
  have e3 : (y.setWidth 16).toNat = y.toNat := by simp; omega
  have e4 : (n.setWidth 16).toNat = n.toNat := by simp; omega
  have e5 : (y.setWidth 16 <<< 4 ||| n.setWidth 16 : Word).toNat = y.toNat * 2 ^ 4 + n.toNat := by
    rw [or_shift_toNat (by omega) (by omega), e3, e4]
  have e6 : (h.setWidth 16 <<< 8 ||| (y.setWidth 16 <<< 4 ||| n.setWidth 16) : Word).toNat =
      h.toNat * 2 ^ 8 + (y.toNat * 2 ^ 4 + n.toNat) := by
    rw [or_shift_toNat (by omega) (by omega), e2, e5]
  rw [wordXYN, BitVec.or_assoc, BitVec.or_assoc, or_shift_toNat (by omega) (by omega), e1, e6]
  omega

@[simp] theorem toNat_regField (x : RegNum) : (regField x).toNat = x.val := rfl

/-- The word of two bytes as a number: the first byte is the high one (20_memory.md R54). -/
theorem toNat_wordOfBytes (hi lo : Byte) : (wordOfBytes hi lo).toNat = 0x100 * hi.toNat + lo.toNat := by
  have h1 := hi.isLt
  have h2 := lo.isLt
  have e1 : (hi.setWidth 16).toNat = hi.toNat := by simp; omega
  have e2 : (lo.setWidth 16).toNat = lo.toNat := by simp; omega
  rw [wordOfBytes, or_shift_toNat (by omega) (by omega), e1, e2]
  omega

/-! ### Words and bytes -/

@[simp] theorem highByte_wordOfBytes (hi lo : Byte) : highByte (wordOfBytes hi lo) = hi := by
  ext i h; simp [highByte, wordOfBytes, h]; interval_cases i <;> simp

@[simp] theorem lowByte_wordOfBytes (hi lo : Byte) : lowByte (wordOfBytes hi lo) = lo := by
  ext i h; simp [lowByte, wordOfBytes, h]; interval_cases i <;> simp

@[simp] theorem wordOfBytes_bytes (w : Word) : wordOfBytes (highByte w) (lowByte w) = w := by
  ext i h; simp [highByte, lowByte, wordOfBytes, h]; interval_cases i <;> simp

/-- The decoder on two bytes is the decoder on their word. -/
theorem decodeBytes_ok {hi lo : Byte} {rest : List Byte} {i : Instr}
    (h : decode (wordOfBytes hi lo) = .ok i) : decodeBytes (hi :: lo :: rest) = .ok (i, rest) := by
  simp [decodeBytes, h]

/-- A word is rejected by name and by nothing else. -/
theorem decode_error {w : Word} {e : DecodeError} (h : decode w = .error e) : e = .unknownOpcode w := by
  unfold decode decodeGroup0 decodeGroup8 decodeGroupE decodeGroupF at h
  split at h <;> (try split at h) <;> simp_all

end Sys2Proof
end

