-- ==== Sys2Proof/Laws/PerInstr.lean ====
section
/-! SUPPORT. The per-instruction family `EncodesItsRow`: an instruction's word selects the instruction's row of the
opcode map (30_encoding.md R74), for every value of its operands. -/

namespace Sys2Proof.Laws.EncodesItsRow

/-- The word of the instruction selects its row, and the row is one of the map's. -/
def Statement (i : Instr) : Prop := i.row ∈ opcodeMap ∧ encode i &&& i.row.mask = i.row.pattern

/-! The word of each format under the mask of its row. -/

theorem maskNNN (op : Nibble) (nnn : Addr12) : wordNNN op nnn &&& 0xF000 = wordNNN op 0 := by
  ext i hi; simp [wordNNN]; interval_cases i <;> simp

theorem maskXKK (op h : Nibble) (kk : Byte) : wordXKK op h kk &&& 0xF000 = wordXKK op 0 0 := by
  ext i hi; simp [wordXKK]; interval_cases i <;> simp

theorem maskXS (op h : Nibble) (kk : Byte) : wordXKK op h kk &&& 0xF0FF = wordXKK op 0 kk := by
  ext i hi; simp [wordXKK]; interval_cases i <;> simp

theorem maskXYN (op h y n : Nibble) : wordXYN op h y n &&& 0xF000 = wordXYN op 0 0 0 := by
  ext i hi; simp [wordXYN]; interval_cases i <;> simp

theorem maskXYS (op h y n : Nibble) : wordXYN op h y n &&& 0xF00F = wordXYN op 0 0 n := by
  ext i hi; simp [wordXYN]; interval_cases i <;> simp

theorem cls (m : Nibble) : Statement (.cls m) :=
  ⟨(by decide : (⟨0x00E0, 0xF0FF⟩ : OpcodeRow) ∈ opcodeMap), maskXS _ _ _⟩

theorem ret (m : Nibble) : Statement (.ret m) :=
  ⟨(by decide : (⟨0x00EE, 0xF0FF⟩ : OpcodeRow) ∈ opcodeMap), maskXS _ _ _⟩

theorem jp (nnn : Addr12) : Statement (.jp nnn) :=
  ⟨(by decide : (⟨0x1000, 0xF000⟩ : OpcodeRow) ∈ opcodeMap), maskNNN _ _⟩

theorem call (nnn : Addr12) : Statement (.call nnn) :=
  ⟨(by decide : (⟨0x2000, 0xF000⟩ : OpcodeRow) ∈ opcodeMap), maskNNN _ _⟩

theorem seImm (x : RegNum) (kk : Byte) : Statement (.seImm x kk) :=
  ⟨(by decide : (⟨0x3000, 0xF000⟩ : OpcodeRow) ∈ opcodeMap), maskXKK _ _ _⟩

theorem sneImm (x : RegNum) (kk : Byte) : Statement (.sneImm x kk) :=
  ⟨(by decide : (⟨0x4000, 0xF000⟩ : OpcodeRow) ∈ opcodeMap), maskXKK _ _ _⟩

theorem seReg (x : RegNum) (y : RegNum) (n : Nibble) : Statement (.seReg x y n) :=
  ⟨(by decide : (⟨0x5000, 0xF000⟩ : OpcodeRow) ∈ opcodeMap), maskXYN _ _ _ _⟩

theorem ldImm (x : RegNum) (kk : Byte) : Statement (.ldImm x kk) :=
  ⟨(by decide : (⟨0x6000, 0xF000⟩ : OpcodeRow) ∈ opcodeMap), maskXKK _ _ _⟩

theorem addImm (x : RegNum) (kk : Byte) : Statement (.addImm x kk) :=
  ⟨(by decide : (⟨0x7000, 0xF000⟩ : OpcodeRow) ∈ opcodeMap), maskXKK _ _ _⟩

theorem ldReg (x : RegNum) (y : RegNum) : Statement (.ldReg x y) :=
  ⟨(by decide : (⟨0x8000, 0xF00F⟩ : OpcodeRow) ∈ opcodeMap), maskXYS _ _ _ _⟩

theorem orReg (x : RegNum) (y : RegNum) : Statement (.orReg x y) :=
  ⟨(by decide : (⟨0x8001, 0xF00F⟩ : OpcodeRow) ∈ opcodeMap), maskXYS _ _ _ _⟩

theorem andReg (x : RegNum) (y : RegNum) : Statement (.andReg x y) :=
  ⟨(by decide : (⟨0x8002, 0xF00F⟩ : OpcodeRow) ∈ opcodeMap), maskXYS _ _ _ _⟩

theorem xorReg (x : RegNum) (y : RegNum) : Statement (.xorReg x y) :=
  ⟨(by decide : (⟨0x8003, 0xF00F⟩ : OpcodeRow) ∈ opcodeMap), maskXYS _ _ _ _⟩

theorem addReg (x : RegNum) (y : RegNum) : Statement (.addReg x y) :=
  ⟨(by decide : (⟨0x8004, 0xF00F⟩ : OpcodeRow) ∈ opcodeMap), maskXYS _ _ _ _⟩

theorem subReg (x : RegNum) (y : RegNum) : Statement (.subReg x y) :=
  ⟨(by decide : (⟨0x8005, 0xF00F⟩ : OpcodeRow) ∈ opcodeMap), maskXYS _ _ _ _⟩

theorem shr (x : RegNum) (y : RegNum) : Statement (.shr x y) :=
  ⟨(by decide : (⟨0x8006, 0xF00F⟩ : OpcodeRow) ∈ opcodeMap), maskXYS _ _ _ _⟩

theorem subnReg (x : RegNum) (y : RegNum) : Statement (.subnReg x y) :=
  ⟨(by decide : (⟨0x8007, 0xF00F⟩ : OpcodeRow) ∈ opcodeMap), maskXYS _ _ _ _⟩

theorem shl (x : RegNum) (y : RegNum) : Statement (.shl x y) :=
  ⟨(by decide : (⟨0x800E, 0xF00F⟩ : OpcodeRow) ∈ opcodeMap), maskXYS _ _ _ _⟩

theorem sneReg (x : RegNum) (y : RegNum) (n : Nibble) : Statement (.sneReg x y n) :=
  ⟨(by decide : (⟨0x9000, 0xF000⟩ : OpcodeRow) ∈ opcodeMap), maskXYN _ _ _ _⟩

theorem ldI (nnn : Addr12) : Statement (.ldI nnn) :=
  ⟨(by decide : (⟨0xA000, 0xF000⟩ : OpcodeRow) ∈ opcodeMap), maskNNN _ _⟩

theorem jpV0 (nnn : Addr12) : Statement (.jpV0 nnn) :=
  ⟨(by decide : (⟨0xB000, 0xF000⟩ : OpcodeRow) ∈ opcodeMap), maskNNN _ _⟩

theorem rnd (x : RegNum) (kk : Byte) : Statement (.rnd x kk) :=
  ⟨(by decide : (⟨0xC000, 0xF000⟩ : OpcodeRow) ∈ opcodeMap), maskXKK _ _ _⟩

theorem drw (x : RegNum) (y : RegNum) (n : Nibble) : Statement (.drw x y n) :=
  ⟨(by decide : (⟨0xD000, 0xF000⟩ : OpcodeRow) ∈ opcodeMap), maskXYN _ _ _ _⟩

theorem skp (x : RegNum) : Statement (.skp x) :=
  ⟨(by decide : (⟨0xE09E, 0xF0FF⟩ : OpcodeRow) ∈ opcodeMap), maskXS _ _ _⟩

theorem sknp (x : RegNum) : Statement (.sknp x) :=
  ⟨(by decide : (⟨0xE0A1, 0xF0FF⟩ : OpcodeRow) ∈ opcodeMap), maskXS _ _ _⟩

theorem ldVxDt (x : RegNum) : Statement (.ldVxDt x) :=
  ⟨(by decide : (⟨0xF007, 0xF0FF⟩ : OpcodeRow) ∈ opcodeMap), maskXS _ _ _⟩

theorem ldVxK (x : RegNum) : Statement (.ldVxK x) :=
  ⟨(by decide : (⟨0xF00A, 0xF0FF⟩ : OpcodeRow) ∈ opcodeMap), maskXS _ _ _⟩

theorem ldDtVx (x : RegNum) : Statement (.ldDtVx x) :=
  ⟨(by decide : (⟨0xF015, 0xF0FF⟩ : OpcodeRow) ∈ opcodeMap), maskXS _ _ _⟩

theorem ldStVx (x : RegNum) : Statement (.ldStVx x) :=
  ⟨(by decide : (⟨0xF018, 0xF0FF⟩ : OpcodeRow) ∈ opcodeMap), maskXS _ _ _⟩

theorem addI (x : RegNum) : Statement (.addI x) :=
  ⟨(by decide : (⟨0xF01E, 0xF0FF⟩ : OpcodeRow) ∈ opcodeMap), maskXS _ _ _⟩

theorem ldGlyph (x : RegNum) : Statement (.ldGlyph x) :=
  ⟨(by decide : (⟨0xF029, 0xF0FF⟩ : OpcodeRow) ∈ opcodeMap), maskXS _ _ _⟩

theorem ldBcd (x : RegNum) : Statement (.ldBcd x) :=
  ⟨(by decide : (⟨0xF033, 0xF0FF⟩ : OpcodeRow) ∈ opcodeMap), maskXS _ _ _⟩

theorem storeRegs (x : RegNum) : Statement (.storeRegs x) :=
  ⟨(by decide : (⟨0xF055, 0xF0FF⟩ : OpcodeRow) ∈ opcodeMap), maskXS _ _ _⟩

theorem loadRegs (x : RegNum) : Statement (.loadRegs x) :=
  ⟨(by decide : (⟨0xF065, 0xF0FF⟩ : OpcodeRow) ∈ opcodeMap), maskXS _ _ _⟩

end Sys2Proof.Laws.EncodesItsRow
end

