-- ==== Sys2Proof/Laws/Video.lean ====
section
/-! SUPPORT. The framebuffer: what flipping a pixel does, which cells a sprite covers, and what the drawing loop
leaves. -/

namespace Sys2Proof.Machine

/-- Flipping one pixel of the framebuffer changes that pixel and no other. -/
theorem Video.pixel_toggle (f : Video) {L : Nat} (hL : L ≤ 2047) (M : Nat) :
    (f.toggle L).pixel M = (f.pixel M ^^ decide (M = L)) := by
  have hr : L / 64 < 32 := by omega
  have hm : M % 64 < 64 := Nat.mod_lt _ (by decide)
  by_cases h : M / 64 = L / 64
  · simp only [Video.pixel, Video.toggle, Video.row, h, Vector.getElem?_setIfInBounds_self, hr, if_true,
      Option.getD_some, BitVec.getLsbD_xor, BitVec.getLsbD_shiftLeft, BitVec.getLsbD_one, hm, decide_true,
      Bool.true_and]
    congr 1
    by_cases e : M = L
    · subst e; simp
    · have hne : M % 64 ≠ L % 64 := by omega
      rcases Nat.lt_or_gt_of_ne hne with h1 | h1
      · simp [e, h1]
      · have : M % 64 - L % 64 ≠ 0 := by omega
        simp [e, this]
  · have e : M ≠ L := by rintro rfl; exact h rfl
    have h' : L / 64 ≠ M / 64 := fun e => h e.symm
    simp [Video.pixel, Video.toggle, Video.row, h', e]

/-- Two framebuffers with the same 2048 pixels are equal. -/
theorem Video.ext_of_pixel {f g : Video} (h : ∀ L ≤ 2047, f.pixel L = g.pixel L) : f = g := by
  refine Vector.ext fun y hy => BitVec.eq_of_getLsbD_eq fun x hx => ?_
  have e := h (y * 64 + x) (by omega)
  have hd : (y * 64 + x) / 64 = y := by omega
  have hm : (y * 64 + x) % 64 = x := by omega
  simpa [Video.pixel, Video.row, hd, hm, hy] using e

/-- A cleared framebuffer has every pixel off. -/
@[simp] theorem Video.pixel_clear (L : Nat) : Video.pixel (Vector.replicate 32 0#64) L = false := by
  by_cases h : L / 64 < 32 <;> simp [Video.pixel, Video.row, h]

/-! ### The drawing loop -/

theorem plot_foldl (cells : List Nat) : ∀ (f : Video) (c : Bool), (∀ L ∈ cells, L ≤ 2047) → cells.Nodup →
    (∀ M, (cells.foldl plot (f, c)).1.pixel M = (f.pixel M ^^ decide (M ∈ cells))) ∧
    (cells.foldl plot (f, c)).2 = (c || cells.any f.pixel) := by
  induction cells with
  | nil => simp
  | cons L cells ih =>
    intro f c hr hn
    rw [List.nodup_cons] at hn
    obtain ⟨h1, h2⟩ := ih (f.toggle L) (c || f.pixel L) (fun M hM => hr M (List.mem_cons_of_mem _ hM)) hn.2
    have hL : L ≤ 2047 := hr L List.mem_cons_self
    constructor
    · intro M
      simp only [List.foldl_cons, plot, h1 M, Video.pixel_toggle f hL, List.mem_cons]
      by_cases e : M = L
      · subst e; simp [hn.1]
      · simp [e]
    · have hany : cells.any (f.toggle L).pixel = cells.any f.pixel := by
        rw [Bool.eq_iff_iff, List.any_eq_true, List.any_eq_true]
        refine exists_congr fun M => and_congr_right fun hM => ?_
        have : M ≠ L := by rintro rfl; exact hn.1 hM
        simp [Video.pixel_toggle f hL, this]
      simp only [List.foldl_cons, plot, h2, hany, List.any_cons, Bool.or_assoc]

/-- The drawing loop on cells within the framebuffer, no cell twice: each of them is flipped and no other, and the
collision is that one of them was on (43_display.md R171 (f), R174 (c) and (d)). -/
theorem plotAll_spec {cells : List Nat} (f : Video) (hr : ∀ L ∈ cells, L ≤ 2047) (hn : cells.Nodup) :
    (∀ M, (plotAll f cells).1.pixel M = (f.pixel M ^^ decide (M ∈ cells))) ∧
    (plotAll f cells).2 = cells.any f.pixel := by
  simpa [plotAll] using plot_foldl cells f false hr hn

/-! ### The cells of a sprite -/

theorem mem_spriteRowCells {base : Nat} {b : Byte} {L : Nat} :
    L ∈ spriteRowCells base b ↔ ∃ c < 8, b.getLsbD (7 - c) = true ∧ L = base + c := by
  simp only [spriteRowCells, List.mem_map, List.mem_filter, List.mem_range, and_assoc]
  exact exists_congr fun c => and_congr_right fun _ => and_congr_right fun _ => eq_comm

/-- The cells of a sprite: `(y + r) * 64 + (x0 + c)` for the set bits, bit `7 - c` of row `r` (R172, R173). -/
theorem mem_spriteCells {x0 L : Nat} : (rows : List Byte) → (y : Nat) →
    (L ∈ spriteCells x0 y rows ↔ ∃ r c, ∃ h : r < rows.length, c < 8 ∧ (rows[r]).getLsbD (7 - c) = true ∧
      L = (y + r) * 64 + (x0 + c))
  | [], y => by simp [spriteCells]
  | b :: rows, y => by
    simp only [spriteCells, List.mem_append, mem_spriteRowCells, mem_spriteCells rows (y + 1)]
    constructor
    · rintro (⟨c, hc, hb, rfl⟩ | ⟨r, c, hr, hc, hb, rfl⟩)
      · exact ⟨0, c, by simp, hc, by simpa using hb, by omega⟩
      · exact ⟨r + 1, c, by simpa using hr, hc, by simpa using hb, by omega⟩
    · rintro ⟨r, c, hr, hc, hb, rfl⟩
      cases r with
      | zero => exact .inl ⟨c, hc, by simpa using hb, by omega⟩
      | succ r => exact .inr ⟨r, c, by simpa using hr, hc, by simpa using hb, by omega⟩

theorem spriteRowCells_nodup (base : Nat) (b : Byte) : (spriteRowCells base b).Nodup :=
  (List.nodup_range.filter _).map fun _ _ h => by simpa using h

/-- No two set bits of one sprite fall on the same pixel (R171 (f)). -/
theorem spriteCells_nodup (x0 : Nat) : (rows : List Byte) → (y : Nat) → (spriteCells x0 y rows).Nodup
  | [], _ => List.nodup_nil
  | b :: rows, y => by
    refine List.nodup_append'.2 ⟨spriteRowCells_nodup _ b, spriteCells_nodup x0 rows (y + 1), ?_⟩
    intro L h1 h2
    rw [mem_spriteRowCells] at h1
    rw [mem_spriteCells] at h2
    obtain ⟨c, hc, -, rfl⟩ := h1
    obtain ⟨r, d, -, hd, -, h⟩ := h2
    omega

theorem State.drawCells_nodup (s : State) (x y : RegNum) (n : Nibble) : (s.drawCells x y n).Nodup :=
  spriteCells_nodup _ _ _

/-- The cells `DRW Vx, Vy, n` flips, by the indices of R171: bit `7 - c` of the byte at `index + r`, at
`((Vy mod 32) + r) * 64 + ((Vx mod 64) + c)`. -/
theorem State.mem_drawCells (s : State) (x y : RegNum) (n : Nibble) (L : Nat) :
    L ∈ s.drawCells x y n ↔ ∃ r c : Nat, r < n.toNat ∧ c < 8 ∧
      (s.mem.read (s.index.toNat + r)).getLsbD (7 - c) = true ∧
      L = ((s.reg y).toNat % 32 + r) * 64 + ((s.reg x).toNat % 64 + c) := by
  simp only [State.drawCells, mem_spriteCells, Memory.length_readBytes, Memory.getElem_readBytes, exists_prop]

end Sys2Proof.Machine
end

