-- ==== Sys2Proof/Tests/Slice0.lean ====
section
/-! SUPPORT. Tests of the model, with expected results from the spec's vectors (95_test_vectors.md) and encoding tables
(30_encoding.md R74), and a witness for the hypotheses of each obligation that has some. -/

namespace Sys2Proof.Tests

open Sys2Proof.Machine Sys2Proof.Claims

/-! ## Well-formed instructions: the ill-formed term of each check is refused (R77, R80) -/

theorem test_wf_cls : Instr.wellFormed (.cls 1) = false ∧ Instr.wellFormed (.cls 0) = true := by decide
theorem test_wf_ret : Instr.wellFormed (.ret 7) = false ∧ Instr.wellFormed (.ret 0) = true := by decide
theorem test_wf_seReg : Instr.wellFormed (.seReg 1 2 7) = false ∧ Instr.wellFormed (.seReg 1 2 0) = true := by decide
theorem test_wf_sneReg :
    Instr.wellFormed (.sneReg 1 2 5) = false ∧ Instr.wellFormed (.sneReg 1 2 0) = true := by decide

/-! ## Decoding: one word of each row, written out from the row's pattern (R74) -/

theorem test_decode_cls : decode 0x00E0 = .ok (.cls 0) := by decide
theorem test_decode_ret : decode 0x00EE = .ok (.ret 0) := by decide
theorem test_decode_jp : decode 0x12A0 = .ok (.jp 0x2A0) := by decide
theorem test_decode_call : decode 0x2300 = .ok (.call 0x300) := by decide
theorem test_decode_seImm : decode 0x3310 = .ok (.seImm 3 0x10) := by decide
theorem test_decode_sneImm : decode 0x4310 = .ok (.sneImm 3 0x10) := by decide
theorem test_decode_seReg : decode 0x5120 = .ok (.seReg 1 2 0) := by decide
theorem test_decode_ldImm : decode 0x6005 = .ok (.ldImm 0 5) := by decide
theorem test_decode_addImm : decode 0x7003 = .ok (.addImm 0 3) := by decide
theorem test_decode_ldReg : decode 0x8120 = .ok (.ldReg 1 2) := by decide
theorem test_decode_orReg : decode 0x8121 = .ok (.orReg 1 2) := by decide
theorem test_decode_andReg : decode 0x8122 = .ok (.andReg 1 2) := by decide
theorem test_decode_xorReg : decode 0x8123 = .ok (.xorReg 1 2) := by decide
theorem test_decode_addReg : decode 0x8F14 = .ok (.addReg 15 1) := by decide
theorem test_decode_subReg : decode 0x8125 = .ok (.subReg 1 2) := by decide
theorem test_decode_shr : decode 0x8126 = .ok (.shr 1 2) := by decide
theorem test_decode_subnReg : decode 0x8127 = .ok (.subnReg 1 2) := by decide
theorem test_decode_shl : decode 0x810E = .ok (.shl 1 0) := by decide
theorem test_decode_sneReg : decode 0x9120 = .ok (.sneReg 1 2 0) := by decide
theorem test_decode_ldI : decode 0xAFFF = .ok (.ldI 0xFFF) := by decide
theorem test_decode_jpV0 : decode 0xB210 = .ok (.jpV0 0x210) := by decide
theorem test_decode_rnd : decode 0xC20F = .ok (.rnd 2 0x0F) := by decide
theorem test_decode_drw : decode 0xDF01 = .ok (.drw 15 0 1) := by decide
theorem test_decode_skp : decode 0xE19E = .ok (.skp 1) := by decide
theorem test_decode_sknp : decode 0xE1A1 = .ok (.sknp 1) := by decide
theorem test_decode_ldVxDt : decode 0xF207 = .ok (.ldVxDt 2) := by decide
theorem test_decode_ldVxK : decode 0xF50A = .ok (.ldVxK 5) := by decide
theorem test_decode_ldDtVx : decode 0xF315 = .ok (.ldDtVx 3) := by decide
theorem test_decode_ldStVx : decode 0xF318 = .ok (.ldStVx 3) := by decide
theorem test_decode_addI : decode 0xF11E = .ok (.addI 1) := by decide
theorem test_decode_ldGlyph : decode 0xF229 = .ok (.ldGlyph 2) := by decide
theorem test_decode_ldBcd : decode 0xF333 = .ok (.ldBcd 3) := by decide
theorem test_decode_storeRegs : decode 0xF255 = .ok (.storeRegs 2) := by decide
theorem test_decode_loadRegs : decode 0xFF65 = .ok (.loadRegs 15) := by decide

/-- Non-canonical words that select an instruction all the same (R77; vectors TF8, TF12, TF13, E4). -/
theorem test_decode_noncanonical : decode 0x07EE = .ok (.ret 7) ∧ decode 0x01E0 = .ok (.cls 1) ∧
    decode 0x5127 = .ok (.seReg 1 2 7) ∧ decode 0x9125 = .ok (.sneReg 1 2 5) := by decide

/-- Words that select nothing are refused by name (R76; vectors TX1 to TX8). -/
theorem test_decode_unknown : decode 0x0000 = .error (.unknownOpcode 0x0000) ∧
    decode 0x0123 = .error (.unknownOpcode 0x0123) ∧ decode 0x00E1 = .error (.unknownOpcode 0x00E1) ∧
    decode 0x00FE = .error (.unknownOpcode 0x00FE) ∧ decode 0x8128 = .error (.unknownOpcode 0x8128) ∧
    decode 0x812F = .error (.unknownOpcode 0x812F) ∧ decode 0xE11E = .error (.unknownOpcode 0xE11E) ∧
    decode 0xE100 = .error (.unknownOpcode 0xE100) ∧ decode 0xF1FF = .error (.unknownOpcode 0xF1FF) := by decide

/-- Two bytes, the high one first; the bytes after them are given back, and one byte is too few (R70, R54; TX12). -/
theorem test_decode_bytes : decodeBytes [0x12, 0x34, 0xAB] = .ok (.jp 0x234, [0xAB]) ∧
    decodeBytes [0x12] = .error .tooShort ∧ encodeBytes (.jp 0x234) = [0x12, 0x34] := by
  refine ⟨rfl, rfl, rfl⟩

/-- No two rows of the map select one word: where two rows examine a common bit they differ in one (R74). -/
theorem test_map_disjoint :
    opcodeMap.Pairwise fun r r' => r.pattern &&& (r.mask &&& r'.mask) ≠ r'.pattern &&& (r.mask &&& r'.mask) := by
  decide

/-! ## One cycle of each instruction, from the vectors of 95_test_vectors.md -/

/-- Reset with these registers. -/
def withRegs (l : List (RegNum × Byte)) : State := l.foldl (fun s p => s.setReg p.1 p.2) State.reset

/-- The word placed at `pc`. -/
def at200 (w : Nat) (s : State) : State := s.withFetchWord 16 w

/-- What one whole cycle leaves meets a check. -/
def cycleGives (s : State) (check : State → Bool) : Bool :=
  match step s with
  | .next t => check t
  | _ => false

/-- What one instruction, run on a state, leaves meets a check. Used where the keypad or the random byte matters: in a
whole cycle they are free values. -/
def execGives (i : Instr) (s : State) (check : State → Bool) : Bool :=
  match exec i s with
  | .next t => check t
  | _ => false

/-- The state an instruction fetched from 0x200 starts in. -/
def fetchedAt200 (s : State) : State := { s with pc := 0x0202 }

/-- TF1. -/
theorem test_jp_target :
    (cycleGives (at200 0x1ABC State.reset) fun t => t.pc == 0x0ABC) = true := by
  decide

/-- TF4: the sixteenth call. -/
theorem test_call_pushes :
    (cycleGives (at200 0x2300 { State.reset with sp := 15 }) fun t =>
    t.stack[15] == 0x0202 && t.sp == 16 && t.pc == 0x0300) = true := by
  decide

/-- TF5. -/
theorem test_call_overflow :
    (cycleGives (at200 0x2300 { State.reset with sp := 16 }) fun t =>
    t.fault == 3 && !t.running && t.sp == 16 && t.pc == 0x0202 && t.stack == State.reset.stack) = true := by
  decide

/-- TF6: the popped entry keeps its value. -/
theorem test_ret_pops :
    (cycleGives (at200 0x00EE { State.reset with sp := 1, stack := State.reset.stack.set 0 0x0456 }) fun t =>
    t.sp == 0 && t.pc == 0x0456 && t.stack[0] == 0x0456) = true := by
  decide

/-- TF7. -/
theorem test_ret_underflow :
    (cycleGives (at200 0x00EE State.reset) fun t => t.fault == 4 && t.sp == 0 && t.pc == 0x0202) = true := by
  decide

/-- TF16: a skip taken at the last fetch address, the program counter not masked. -/
theorem test_seImm_past_end :
    (cycleGives (at200 0x3100 { State.reset with pc := 0x0FFE }) fun t =>
      t.pc == 0x1002 && t.fault == 0) = true := by
  decide

/-- E7. -/
theorem test_seImm_not_taken :
    (cycleGives (at200 0x3142 (withRegs [(1, 0x41)])) fun t => t.pc == 0x0202) = true := by
  decide

/-- E7. -/
theorem test_sneImm_taken :
    (cycleGives (at200 0x4142 (withRegs [(1, 0x41)])) fun t => t.pc == 0x0204) = true := by
  decide

/-- E7. -/
theorem test_sneImm_not_taken :
    (cycleGives (at200 0x4142 (withRegs [(1, 0x42)])) fun t => t.pc == 0x0202) = true := by
  decide

/-- TF12, a non-canonical word. -/
theorem test_seReg_taken :
    (cycleGives (at200 0x5127 (withRegs [(1, 4), (2, 4)])) fun t => t.pc == 0x0204) = true := by
  decide

/-- E7. -/
theorem test_seReg_not_taken :
    (cycleGives (at200 0x5120 (withRegs [(1, 4), (2, 5)])) fun t => t.pc == 0x0202) = true := by
  decide

/-- TF13, a non-canonical word. -/
theorem test_sneReg_taken :
    (cycleGives (at200 0x9125 (withRegs [(1, 4), (2, 5)])) fun t => t.pc == 0x0204) = true := by
  decide

/-- E7. -/
theorem test_sneReg_not_taken :
    (cycleGives (at200 0x9120 (withRegs [(1, 4), (2, 4)])) fun t => t.pc == 0x0202) = true := by
  decide

/-- E10. -/
theorem test_jpV0_offset :
    (cycleGives (at200 0xB210 (withRegs [(0, 5)])) fun t => t.pc == 0x0215) = true := by
  decide

/-- TF11. -/
theorem test_jpV0_not_masked :
    (cycleGives (at200 0xBFFF (withRegs [(0, 0xFF)])) fun t => t.pc == 0x10FE) = true := by
  decide

/-- TA2. -/
theorem test_ldImm_flag :
    (cycleGives (at200 0x6F07 State.reset) fun t => t.reg 15 == 7) = true := by
  decide

/-- TA3. -/
theorem test_addImm_wraps :
    (cycleGives (at200 0x7101 (withRegs [(1, 0xFF)])) fun t => t.reg 1 == 0 && t.reg 15 == 0) = true := by
  decide

/-- TA4. -/
theorem test_addImm_on_flag :
    (cycleGives (at200 0x7FFF (withRegs [(15, 1)])) fun t => t.reg 15 == 0) = true := by
  decide

/-- TA5. -/
theorem test_ldReg_copies :
    (cycleGives (at200 0x8120 (withRegs [(1, 0x11), (2, 0x22)])) fun t =>
      t.reg 1 == 0x22 && t.reg 2 == 0x22) = true := by
  decide

/-- TA6. -/
theorem test_orReg :
    (cycleGives (at200 0x8121 (withRegs [(1, 0x0F), (2, 0xF0), (15, 0x5A)])) fun t =>
      t.reg 1 == 0xFF && t.reg 15 == 0x5A) = true := by
  decide

/-- TA7. -/
theorem test_andReg :
    (cycleGives (at200 0x8122 (withRegs [(1, 0x3C), (2, 0x0F), (15, 0x5A)])) fun t =>
      t.reg 1 == 0x0C && t.reg 15 == 0x5A) = true := by
  decide

/-- TA8. -/
theorem test_xorReg :
    (cycleGives (at200 0x8123 (withRegs [(1, 0xFF), (2, 0x0F), (15, 0x5A)])) fun t =>
      t.reg 1 == 0xF0 && t.reg 15 == 0x5A) = true := by
  decide

/-- TA12: the old flag is read first. -/
theorem test_addReg_carry_from_flag :
    (cycleGives (at200 0x81F4 (withRegs [(1, 0xFE), (15, 3)])) fun t => t.reg 1 == 1 && t.reg 15 == 1) = true := by
  decide

/-- TA11: the sum is lost to the flag. -/
theorem test_addReg_to_flag :
    (cycleGives (at200 0x8F14 (withRegs [(15, 0x10), (1, 2)])) fun t => t.reg 15 == 0) = true := by
  decide

/-- E2. -/
theorem test_subReg_borrow :
    (cycleGives (at200 0x8125 (withRegs [(1, 5), (2, 7)])) fun t => t.reg 1 == 0xFE && t.reg 15 == 0) = true := by
  decide

/-- E2: equal operands count as no borrow. -/
theorem test_subReg_equal :
    (cycleGives (at200 0x8125 (withRegs [(1, 7), (2, 7)])) fun t => t.reg 1 == 0 && t.reg 15 == 1) = true := by
  decide

/-- E2. -/
theorem test_subnReg_borrow :
    (cycleGives (at200 0x8127 (withRegs [(1, 7), (2, 5)])) fun t => t.reg 1 == 0xFE && t.reg 15 == 0) = true := by
  decide

/-- TA16. -/
theorem test_subnReg_to_flag :
    (cycleGives (at200 0x8F17 (withRegs [(15, 5), (1, 7)])) fun t => t.reg 15 == 1) = true := by
  decide

/-- E3: the value shifted is `Vx`, not `Vy`. -/
theorem test_shr_in_place :
    (cycleGives (at200 0x8126 (withRegs [(1, 0xFF)])) fun t =>
      t.reg 1 == 0x7F && t.reg 15 == 1 && t.reg 2 == 0) = true := by
  decide

/-- TA17. -/
theorem test_shr_to_flag :
    (cycleGives (at200 0x8F06 (withRegs [(15, 3)])) fun t => t.reg 15 == 1) = true := by
  decide

/-- E3. -/
theorem test_shl_carry :
    (cycleGives (at200 0x812E (withRegs [(1, 0x80)])) fun t => t.reg 1 == 0 && t.reg 15 == 1) = true := by
  decide

/-- TA18. -/
theorem test_shl_to_flag :
    (cycleGives (at200 0x8F0E (withRegs [(15, 1)])) fun t => t.reg 15 == 0) = true := by
  decide

/-- TA20. -/
theorem test_rnd_mask :
    (execGives (.rnd 2 0x0F) (fetchedAt200 { State.reset with rnd := 0xA7 }) fun t => t.reg 2 == 7) = true := by
  decide

/-- TA21: whatever the random byte. -/
theorem test_rnd_zero_mask : ∀ r : Byte,
    (execGives (.rnd 2 0x00) { withRegs [(2, 9)] with rnd := r } fun t => t.reg 2 == 0) = true := by
  decide

/-- TM1. -/
theorem test_ldI :
    (cycleGives (at200 0xAFFF State.reset) fun t => t.index == 0x0FFF) = true := by
  decide

/-- TM2. -/
theorem test_addI_past_memory :
    (cycleGives (at200 0xF11E { withRegs [(1, 1)] with index := 0x0FFF }) fun t =>
      t.index == 0x1000 && t.fault == 0 && t.reg 15 == 0) = true := by
  decide

/-- TM3. -/
theorem test_addI_wraps :
    (cycleGives (at200 0xF11E { withRegs [(1, 1)] with index := 0xFFFF }) fun t =>
      t.index == 0 && t.reg 15 == 0) = true := by
  decide

/-- TM5. -/
theorem test_ldGlyph_last :
    (cycleGives (at200 0xF129 (withRegs [(1, 0x0F)])) fun t => t.index == 0x009B) = true := by
  decide

/-- TM6. -/
theorem test_ldGlyph_not_masked :
    (cycleGives (at200 0xF129 (withRegs [(1, 0xFF)])) fun t => t.index == 0x054B) = true := by
  decide

/-- TM9. -/
theorem test_ldBcd_at_end :
    (cycleGives (at200 0xF133 { withRegs [(1, 0xFF)] with index := 0x0FFD }) fun t =>
    t.mem.read 0xFFD == 2 && t.mem.read 0xFFE == 5 && t.mem.read 0xFFF == 5) = true := by
  decide

/-- TM10: no byte is written. -/
theorem test_ldBcd_past_end :
    (cycleGives (at200 0xF133 { withRegs [(1, 0xFF)] with index := 0x0FFE }) fun t =>
    t.fault == 2 && t.mem.read 0xFFE == 0 && t.mem.read 0xFFF == 0) = true := by
  decide

/-- TM11. -/
theorem test_storeRegs_all :
    (cycleGives (at200 0xFF55 { withRegs [(0, 1), (15, 0xEE)] with index := 0x0FF0 }) fun t =>
    t.mem.read 0xFF0 == 1 && t.mem.read 0xFF1 == 0 && t.mem.read 0xFFF == 0xEE && t.index == 0x0FF0) = true := by
  decide

/-- TM12. -/
theorem test_storeRegs_past_end :
    (cycleGives (at200 0xFF55 { withRegs [(0, 1)] with index := 0x0FF1 }) fun t =>
      t.fault == 2 && t.mem.read 0xFF1 == 0) = true := by
  decide

/-- TM14. -/
theorem test_loadRegs_last_byte :
    (cycleGives (at200 0xF065 { State.reset with index := 0x0FFF, mem := [(0xFFF, 0x7B)] }) fun t =>
      t.reg 0 == 0x7B) = true := by
  decide

/-- TM15. -/
theorem test_loadRegs_past_end :
    (cycleGives (at200 0xF165 { State.reset with index := 0x0FFF, mem := [(0xFFF, 0x7B)] }) fun t =>
    t.fault == 2 && t.reg 0 == 0) = true := by
  decide

/-- TW1. -/
theorem test_cls :
    (cycleGives (at200 0x00E0 { State.reset with video := ((State.reset.video.toggle 0).toggle 5).toggle 2047 }) fun t =>
    t.video == State.reset.video) = true := by
  decide

/-- TW6: the start is reduced, the columns past 63 land in the next row. -/
theorem test_drw_wraps_to_next_row :
    (cycleGives (at200 0xD011 { withRegs [(0, 124), (1, 33)] with index := 0x300, mem := [(0x300, 0xFF)] }) fun t =>
    t.video[1] == 0xF000000000000000 && t.video[2] == 0xF && t.reg 15 == 0) = true := by
  decide

/-- TW13: the column is the old `VF`. -/
theorem test_drw_flag_column :
    (cycleGives (at200 0xDF01 { withRegs [(15, 3), (0, 1)] with index := 0x300, mem := [(0x300, 0x80)] }) fun t =>
    t.video.pixel 67 && t.reg 15 == 0) = true := by
  decide

/-- E7. -/
theorem test_skp_key :
    (execGives (.skp 1) (fetchedAt200 { withRegs [(1, 0x0A)] with keys := 0x0400 }) fun t =>
      t.pc == 0x0204) = true := by
  decide

/-- TK4: only the named key matters. -/
theorem test_skp_other_keys :
    (execGives (.skp 0) (fetchedAt200 { State.reset with keys := 0xFFFE }) fun t => t.pc == 0x0202) = true := by
  decide

/-- TK3. -/
theorem test_sknp_key :
    (execGives (.sknp 1) (fetchedAt200 { withRegs [(1, 0x0F)] with keys := 0x8000 }) fun t =>
      t.pc == 0x0202) = true := by
  decide

/-- TK2. -/
theorem test_sknp_out_of_range :
    (cycleGives (at200 0xE1A1 (withRegs [(1, 0xFF)])) fun t => t.fault == 5 && t.pc == 0x0202) = true := by
  decide

/-- TK9. -/
theorem test_ldVxDt_before_tick :
    (cycleGives (at200 0xF207 { State.reset with delayTimer := 0x1E }) fun t =>
      t.reg 2 == 0x1E && t.delayTimer == 0x1D) = true := by
  decide

/-- TK5, the instruction alone. -/
theorem test_ldVxK_waits :
    (execGives (.ldVxK 5) (fetchedAt200 (withRegs [(5, 0x77)])) fun t =>
      t.pc == 0x0200 && t.reg 5 == 0x77) = true := by
  decide

/-- TK6. -/
theorem test_ldVxK_least :
    (execGives (.ldVxK 5) (fetchedAt200 { State.reset with keys := 0x0048 }) fun t =>
      t.pc == 0x0202 && t.reg 5 == 3) = true := by
  decide

/-- TK13. -/
theorem test_ldDtVx_ticked :
    (cycleGives (at200 0xF315 (withRegs [(3, 0xFF)])) fun t => t.delayTimer == 0xFE) = true := by
  decide

/-- TK12. -/
theorem test_ldDtVx_zero :
    (cycleGives (at200 0xF315 { State.reset with delayTimer := 7 }) fun t => t.delayTimer == 0) = true := by
  decide

/-- TK15: both timers tick, independently. -/
theorem test_ldStVx_ticked :
    (cycleGives (at200 0xF318 { withRegs [(3, 2)] with delayTimer := 9 }) fun t =>
    t.soundTimer == 1 && t.delayTimer == 8) = true := by
  decide

/-! ## The cycle -/

/-- TX2. -/
theorem test_unknown_ticks :
    (cycleGives (at200 0x8128 { State.reset with delayTimer := 3, soundTimer := 1 }) fun t =>
    t.report == some 0x8128 && t.pc == 0x0202 && t.delayTimer == 2 && t.soundTimer == 0 && t.fault == 0) = true := by
  decide

/-- TX10. -/
theorem test_fetch_range :
    (cycleGives { State.reset with pc := 0x0FFF, delayTimer := 2, opcode := 0x6A11 } fun t =>
    t.fault == 1 && !t.running && t.pc == 0x0FFF && t.opcode == 0x6A11 && t.delayTimer == 2) = true := by
  decide

/-- TX9. -/
theorem test_fetch_last_address :
    (cycleGives (at200 0x6A11 { State.reset with pc := 0x0FFE }) fun t =>
      t.reg 10 == 0x11 && t.pc == 0x1000 && t.opcode == 0x6A11) = true := by
  decide

/-- TX11. -/
theorem test_fetch_odd_address :
    (cycleGives (at200 0x6A11 { State.reset with pc := 0x0201 }) fun t =>
      t.reg 10 == 0x11 && t.pc == 0x0203) = true := by
  decide

/-- TZ6. -/
theorem test_step_not_honoured :
    (cycleGives { State.reset with fault := 4, running := false, delayTimer := 5 } fun t =>
    t == { State.reset with fault := 4, running := false, delayTimer := 5 }) = true := by
  decide

/-- TZ4 in small: the image stands from 0x200 upward, the byte below is as before. -/
theorem test_load_truncates_nothing_below :
    ((loadImage [] [0x60, 0x05, 0x70]).read 0x200 == 0x60 && (loadImage [] [0x60, 0x05, 0x70]).read 0x202 == 0x70 &&
    (loadImage [] [0x60, 0x05, 0x70]).read 0x1FF == 0 && (loadImage [] [0x60, 0x05, 0x70]).read 0x203 == 0) = true := by
  decide

/-- R33, R46: the first and the last glyph byte are those of the parameter, whatever it is. -/
theorem test_reset_glyph : State.reset.mem.read 0x050 = Config.glyphs[0] ∧
    State.reset.mem.read 0x09F = Config.glyphs[79] ∧ State.reset.mem.read 0x04F = 0 ∧
    State.reset.mem.read 0x0A0 = 0 := by
  refine ⟨rfl, rfl, rfl, rfl⟩

/-- R33: the default table, 16 glyphs of 5 bytes; the rows of glyph 0 and of glyph A. -/
theorem test_default_glyphs : Config.defaultGlyphs.length = 80 ∧
    (Config.defaultGlyphs.drop 0).take 5 = [0xF0, 0x90, 0x90, 0x90, 0xF0] ∧
    (Config.defaultGlyphs.drop 50).take 5 = [0xF0, 0x90, 0xF0, 0x90, 0x90] := by decide

/-- R228. -/
theorem test_run_states :
    (State.reset.runState == .running && (hostStop State.reset).runState == .stopped &&
    (raise .keyRange State.reset).runState == .faulted) = true := by
  decide
/-! ## Witnesses: for each obligation with hypotheses, states and operands that meet them, clause by clause -/

/-- The state before the step is honoured and may fetch. -/
abbrev Ready (s : State) : Prop := s.running = true ∧ s.fault = 0 ∧ s.pc.toNat ≤ 0xFFE

theorem test_meets_StepRunsTheDecodedInstruction :
    ∃ s i, Ready s ∧ decode s.fetchWord = .ok i :=
  ⟨at200 0x6005 State.reset, .ldImm 0 5, by decide, by decide⟩

theorem test_meets_UnknownOpcodeIsAReportedNoOp : ∃ s, Ready s ∧ ∀ i, decode s.fetchWord ≠ .ok i := by
  refine ⟨State.reset, by decide, fun i h => ?_⟩
  have e : decode State.reset.fetchWord = .error (.unknownOpcode 0) := by decide
  rw [e] at h; cases h

/-- The last address a fetch may use, and the first it may not. -/
theorem test_meets_FetchIsBigEndianAndRangeChecked :
    (∃ s t, s.pc = 0xFFE ∧ Ready s ∧ step s = .next t) ∧
    ∃ s : State, s.running = true ∧ s.fault = 0 ∧ s.pc = 0xFFF ∧ 0xFFE < s.pc.toNat :=
  ⟨⟨at200 0x6A11 { State.reset with pc := 0x0FFE }, _, by decide, by decide, rfl⟩,
    { State.reset with pc := 0x0FFF }, by decide⟩

theorem test_meets_StepRequestHonouredOnlyWhenRunning :
    (∃ s t, (s.running = true ∧ s.fault = 0) ∧ step s = .next t) ∧
    (∃ s : State, s.fault = 0 ∧ ¬(s.running = true ∧ s.fault = 0)) ∧
    ∃ s : State, s.running = true ∧ ¬(s.running = true ∧ s.fault = 0) :=
  ⟨⟨State.reset, _, by decide, rfl⟩, ⟨hostStop State.reset, by decide⟩, { State.reset with fault := 4 }, by decide⟩

/-- A step is performed, and a load is accepted, after a reset that follows a cycle. -/
theorem test_meets_EveryCycleDrawsItsOwnInputs :
    (∃ s t, Ready s ∧ s.cycle = 7 ∧ step s = .next t) ∧
    ∃ s image t, s.cycle = 7 ∧ hostLoad image s = .next t :=
  ⟨⟨hostReset { State.reset with cycle := 7, started := true }, _, by decide, rfl, rfl⟩,
    hostReset { State.reset with cycle := 7, started := true }, [0x12, 0x00], _, rfl, rfl⟩

theorem test_meets_StopRequestEndsTheRun : ∃ s image t, hostLoad image s = .next t ∧ t.running = true :=
  ⟨State.reset, [0x12, 0x00], _, rfl, by decide⟩

theorem test_meets_FaultedCoreNeverChanges :
    (∃ s : State, s.fault ≠ 0 ∧ s.running = false) ∧ ∃ s image t, s.fault ≠ 0 ∧ hostLoad image s = .next t :=
  ⟨⟨{ State.reset with fault := 6, running := false }, by decide⟩,
    { State.reset with fault := 6, running := false }, [0x12, 0x00], _, by decide, rfl⟩

/-- From reset, with nothing loaded, the first two cycles fetch the unknown word 0x0000 (R242). -/
theorem unknownWords : ∀ j < 2, ∀ u : State, core.run j State.reset = .next u →
    decode u.fetchWord = .error (.unknownOpcode 0) := by
  intro j hj u h
  interval_cases j <;> cases h <;> decide

/-- The delay timer written, the sound timer written, neither written; two cycles in which neither is written. -/
theorem test_meets_TimersTickOncePerCycle :
    (∃ s t x, Ready s ∧ step s = .next t ∧ t.fault = 0 ∧ decode s.fetchWord = .ok (.ldDtVx x)) ∧
    (∃ s t x, Ready s ∧ step s = .next t ∧ t.fault = 0 ∧ decode s.fetchWord = .ok (.ldStVx x)) ∧
    (∃ s t, Ready s ∧ step s = .next t ∧ t.fault = 0 ∧ decode s.fetchWord = .ok (.ldImm 0 5)) ∧
    ∃ s t : State, Ready s ∧ core.run 2 s = .next t ∧ t.fault = 0 ∧
      (∀ j < 2, ∀ (u : State) x, core.run j s = .next u → decode u.fetchWord ≠ .ok (.ldDtVx x)) ∧
      ∀ j < 2, ∀ (u : State) x, core.run j s = .next u → decode u.fetchWord ≠ .ok (.ldStVx x) :=
  ⟨⟨at200 0xF315 State.reset, _, 3, by decide, rfl, rfl, by decide⟩,
    ⟨at200 0xF318 State.reset, _, 3, by decide, rfl, rfl, by decide⟩,
    ⟨at200 0x6005 State.reset, _, by decide, rfl, rfl, by decide⟩,
    State.reset, _, by decide, rfl, rfl,
    fun j hj u x h e => (nomatch (unknownWords j hj u h).symm.trans e),
    fun j hj u x h e => (nomatch (unknownWords j hj u h).symm.trans e)⟩

theorem test_meets_IdleLoopOnlyRunsTheTimersDown : ∃ s, Ready s ∧ s.finished :=
  ⟨at200 0x1200 { State.reset with delayTimer := 2 }, by decide, 0x200, by decide, by decide⟩

theorem test_meets_EncodeOfDecodeIsIdentity : ∃ w i, decode w = .ok i := ⟨0x812E, .shl 1 2, by decide⟩

theorem test_meets_DecoderFollowsTheOpcodeMap :
    (∃ w i, decode w = .ok i) ∧ ∃ w r, r ∈ opcodeMap ∧ w &&& r.mask = r.pattern :=
  ⟨⟨0x9125, .sneReg 1 2 5, by decide⟩, 0x9125, ⟨0x9000, 0xF000⟩, by decide⟩

/-- The secondary keys next to the selecting ones, in each of the four groups. -/
theorem test_meets_UnknownOpcodesAreExactlyThese :
    (∃ w : Word, w.toNat / 0x1000 = 0x0 ∧ w.toNat % 0x100 ∉ [0xE0, 0xEE] ∧ w = 0x00E1) ∧
    (∃ w : Word, w.toNat / 0x1000 = 0x8 ∧ w.toNat % 0x10 ∈ [0x8, 0x9, 0xA, 0xB, 0xC, 0xD, 0xF] ∧ w = 0x812F) ∧
    (∃ w : Word, w.toNat / 0x1000 = 0xE ∧ w.toNat % 0x100 ∉ [0x9E, 0xA1] ∧ w = 0xE1A0) ∧
    ∃ w : Word, w.toNat / 0x1000 = 0xF ∧
      w.toNat % 0x100 ∉ [0x07, 0x0A, 0x15, 0x18, 0x1E, 0x29, 0x33, 0x55, 0x65] ∧ w = 0xFF66 :=
  ⟨⟨0x00E1, by decide⟩, ⟨0x812F, by decide⟩, ⟨0xE1A0, by decide⟩, 0xFF66, by decide⟩

/-- From reset, and from a state a fault leads out of. -/
theorem test_meets_StepKeepsTheInvariant :
    (∃ s t, State.Inv s ∧ step s = .next t) ∧ ∃ s t, State.Inv s ∧ step s = .next t ∧ t.fault ≠ 0 :=
  ⟨⟨State.reset, _, by decide, rfl⟩, at200 0x2300 { State.reset with sp := 16 }, _, by decide, rfl, by decide⟩

theorem test_meets_HostRequestsKeepTheInvariant :
    ∃ s image t, State.Inv s ∧ hostLoad image s = .next t :=
  ⟨State.reset, [0x60, 0x05], _, by decide, rfl⟩

theorem test_meets_StepAlwaysAnswersANextState : ∃ s : State, s.sp.toNat ≤ 16 ∧ s.sp = 16 :=
  ⟨{ State.reset with sp := 16 }, by decide⟩

/-- The first stack pointer above 16, the last of its 5 bits, the largest legal one, a load
before the first cycle and one after it. -/
theorem test_meets_ModelStopsOnlyOnIllegalStackPointerOrLateLoad :
    (∃ s : State, s.sp = 17 ∧ 16 < s.sp.toNat) ∧ (∃ s : State, s.sp = 31 ∧ 16 < s.sp.toNat) ∧
    (∃ s : State, s.sp = 16 ∧ s.sp.toNat ≤ 16) ∧
    (∃ (i : Instr) (s : State), 16 < s.sp.toNat ∧ (∀ nnn, i ≠ .call nnn) ∧ ∀ m, i ≠ .ret m) ∧
    (∃ s : State, s.started = false) ∧ ∃ s : State, s.started = true :=
  ⟨⟨{ State.reset with sp := 17 }, by decide⟩, ⟨{ State.reset with sp := 31 }, by decide⟩,
    ⟨{ State.reset with sp := 16 }, by decide⟩,
    ⟨.cls 0, { State.reset with sp := 17 }, by decide, fun _ => Instr.noConfusion, fun _ => Instr.noConfusion⟩,
    ⟨State.reset, by decide⟩, { State.reset with started := true }, by decide⟩

/-- A fault of the fetch, at the first address it may not use, and one of an instruction. -/
theorem test_meets_FaultsArePrecise :
    (∃ s t, s.running = true ∧ s.fault = 0 ∧ s.pc = 0xFFF ∧ step s = .next t ∧ t.fault ≠ 0) ∧
    ∃ s t, s.running = true ∧ s.fault = 0 ∧ s.pc = 0x200 ∧ step s = .next t ∧ t.fault ≠ 0 :=
  ⟨⟨{ State.reset with pc := 0x0FFF }, _, by decide, by decide, by decide, rfl, by decide⟩,
    at200 0x00EE State.reset, _, by decide, by decide, by decide, rfl, by decide⟩

/-- Each row of the table of R205 an instruction can come to. -/
theorem test_meets_NoOtherConditionFaults :
    (∃ s x y n t, s.fault = 0 ∧ SpriteBeyondMemory s n ∧ exec (.drw x y n) s = .next t ∧ t.fault = 2) ∧
    (∃ s x t, s.fault = 0 ∧ s.ea 2 = 0x1000 ∧ exec (.ldBcd x) s = .next t ∧ t.fault = 2) ∧
    (∃ s t, s.fault = 0 ∧ s.ea 15 = 0x1000 ∧ exec (.storeRegs 15) s = .next t ∧ t.fault = 2) ∧
    (∃ s t, s.fault = 0 ∧ s.ea 0 = 0x1000 ∧ exec (.loadRegs 0) s = .next t ∧ t.fault = 2) ∧
    (∃ s nnn t, s.fault = 0 ∧ s.sp = 16 ∧ exec (.call nnn) s = .next t ∧ t.fault = 3) ∧
    (∃ s m t, s.fault = 0 ∧ s.sp = 0 ∧ exec (.ret m) s = .next t ∧ t.fault = 4) ∧
    (∃ s x t, s.fault = 0 ∧ s.reg x = 16 ∧ exec (.skp x) s = .next t ∧ t.fault = 5) ∧
    ∃ s x y n t, s.fault = 0 ∧ Covered s x y n 2048 ∧ exec (.drw x y n) s = .next t ∧ t.fault = 6 :=
  ⟨⟨{ State.reset with index := 0x0FFF }, 0, 1, 2, _, by decide, ⟨by decide, by decide⟩, rfl, by decide⟩,
    ⟨{ State.reset with index := 0x0FFE }, 1, _, by decide, by decide, rfl, by decide⟩,
    ⟨{ State.reset with index := 0x0FF1 }, _, by decide, by decide, rfl, by decide⟩,
    ⟨{ State.reset with index := 0x1000 }, _, by decide, by decide, rfl, by decide⟩,
    ⟨{ State.reset with sp := 16 }, 0x300, _, by decide, by decide, rfl, by decide⟩,
    ⟨State.reset, 0, _, by decide, by decide, rfl, by decide⟩,
    ⟨withRegs [(1, 16)], 1, _, by decide, by decide, rfl, by decide⟩,
    { withRegs [(0, 60), (1, 31)] with index := 0x300, mem := [(0x300, 0xF8)] }, 0, 1, 1, _, by decide,
    ⟨0, 4, by decide, by decide, by decide, by decide⟩, rfl, by decide⟩

theorem test_meets_FlagRegisterChangesOnlyWhereNamed :
    ∃ i s t, exec i s = .next t ∧ t.reg 15 ≠ s.reg 15 :=
  ⟨.addReg 1 2, withRegs [(1, 0xFF), (2, 2)], _, rfl, by decide⟩

theorem test_meets_OnlyClsAndDrwWriteTheFramebuffer :
    ∃ i s t, exec i s = .next t ∧ t.video ≠ s.video :=
  ⟨.cls 0, { State.reset with video := State.reset.video.toggle 5 }, _, rfl, by decide⟩

theorem test_meets_OnlyStoredBytesOfMemoryChange :
    ∃ i s t a, s.mem.wf = true ∧ exec i s = .next t ∧ t.mem.read a ≠ s.mem.read a :=
  ⟨.storeRegs 0, { withRegs [(0, 0xAB)] with index := 0x0FFF }, _, 0xFFF, by decide, rfl, by decide⟩

theorem test_meets_SpecialRegistersChangeOnlyWhereNamed :
    (∃ i s t, exec i s = .next t ∧ t.stack ≠ s.stack ∧ t.sp ≠ s.sp) ∧
    (∃ i s t, exec i s = .next t ∧ t.index ≠ s.index) ∧
    (∃ i s t, exec i s = .next t ∧ t.delayTimer ≠ s.delayTimer) ∧
    ∃ i s t, exec i s = .next t ∧ t.soundTimer ≠ s.soundTimer :=
  ⟨⟨.call 0x300, fetchedAt200 State.reset, _, rfl, by decide, by decide⟩,
    ⟨.ldI 0x300, State.reset, _, rfl, by decide⟩,
    ⟨.ldDtVx 1, withRegs [(1, 1)], _, rfl, by decide⟩,
    .ldStVx 1, withRegs [(1, 1)], _, rfl, by decide⟩

theorem test_meets_InstructionsLeaveTheRunStateToFaults : ∃ i s t, exec i s = .next t ∧ t.running ≠ s.running :=
  ⟨.ret 0, State.reset, _, rfl, by decide⟩

/-- Each way of changing `pc`: advance only, skip, wait, jump, jump with offset, return. -/
theorem test_meets_ProgramCounterChangesOnlyAsListed :
    (∃ i s t, exec i s = .next t ∧ t.pc = s.pc) ∧ (∃ i s t, exec i s = .next t ∧ t.pc = s.pc + 2) ∧
    (∃ i s t, exec i s = .next t ∧ t.pc = s.pc - 2) ∧ (∃ i s t, exec i s = .next t ∧ t.pc = 0xABC) ∧
    (∃ i s t, exec i s = .next t ∧ t.pc = 0x10FE) ∧
    ∃ i s t, s.sp = 16 ∧ exec i s = .next t ∧ t.pc = s.stack[15] :=
  ⟨⟨.cls 0, fetchedAt200 State.reset, _, rfl, by decide⟩, ⟨.seReg 1 1 0, fetchedAt200 State.reset, _, rfl, by decide⟩,
    ⟨.ldVxK 5, fetchedAt200 State.reset, _, rfl, by decide⟩, ⟨.jp 0xABC, fetchedAt200 State.reset, _, rfl, by decide⟩,
    ⟨.jpV0 0xFFF, fetchedAt200 (withRegs [(0, 0xFF)]), _, rfl, by decide⟩,
    .ret 0, { fetchedAt200 State.reset with sp := 16 }, _, by decide, rfl, by decide⟩

/-- The empty stack, one address stacked, sixteen. -/
theorem test_meets_RetPopsTheReturnAddress :
    (∃ s : State, s.sp = 0) ∧ (∃ s : State, s.sp.toNat = (0 : Fin 16).val + 1) ∧
    ∃ s : State, s.sp.toNat = (15 : Fin 16).val + 1 :=
  ⟨⟨State.reset, by decide⟩, ⟨{ State.reset with sp := 1 }, by decide⟩, { State.reset with sp := 16 }, by decide⟩

/-- The full stack, the empty one, one place left. -/
theorem test_meets_CallPushesTheReturnAddress :
    (∃ s : State, s.sp = 16) ∧ (∃ s : State, s.sp.toNat = (0 : Fin 16).val) ∧
    ∃ s : State, s.sp.toNat = (15 : Fin 16).val :=
  ⟨⟨{ State.reset with sp := 16 }, by decide⟩, ⟨State.reset, by decide⟩, { State.reset with sp := 15 }, by decide⟩

theorem test_meets_CallThenReturnResumesAfterTheCall : ∃ s : State, s.sp = 15 ∧ s.sp.toNat < 16 :=
  ⟨{ State.reset with sp := 15 }, by decide⟩

/-- The last index that fits and the first that does not. -/
theorem test_meets_DecimalDigitsAreStored :
    (∃ s : State, s.ea 2 = 0x1000 ∧ 0xFFF < s.ea 2) ∧
    ∃ s : State, s.ea 2 = 0xFFF ∧ s.ea 2 ≤ 0xFFF ∧ s.mem.wf = true :=
  ⟨⟨{ State.reset with index := 0x0FFE }, by decide⟩, { State.reset with index := 0x0FFD }, by decide⟩

theorem test_meets_RegistersAreStored :
    (∃ (x : RegNum) (s : State), s.ea x.val = 0x1000 ∧ 0xFFF < s.ea x.val) ∧
    ∃ (x : RegNum) (s : State), s.ea x.val = 0xFFF ∧ s.ea x.val ≤ 0xFFF ∧ s.mem.wf = true :=
  ⟨⟨15, { State.reset with index := 0x0FF1 }, by decide⟩, 15, { State.reset with index := 0x0FF0 }, by decide⟩

theorem test_meets_RegistersAreLoaded :
    (∃ (x : RegNum) (s : State), s.ea x.val = 0x1000 ∧ 0xFFF < s.ea x.val) ∧
    ∃ (x : RegNum) (s : State), s.ea x.val = 0xFFF ∧ s.ea x.val ≤ 0xFFF :=
  ⟨⟨0, { State.reset with index := 0x1000 }, by decide⟩, 0, { State.reset with index := 0x0FFF }, by decide⟩

theorem test_meets_StoredRegistersLoadBack :
    ∃ (x : RegNum) (s : State), s.mem.wf = true ∧ s.ea x.val ≤ 0xFFF ∧ s.ea x.val = 0xFFF :=
  ⟨15, { State.reset with index := 0x0FF0 }, by decide⟩

theorem test_meets_StoredWordIsFetchedNext :
    ∃ (x : RegNum) (s : State), 1 ≤ x.val ∧ s.mem.wf = true ∧ s.index = s.pc ∧ s.ea x.val ≤ 0xFFF :=
  ⟨1, { State.reset with pc := 0x202, index := 0x202 }, by decide⟩

/-- A sprite whose one row is four pixels, at the right end of the last row. -/
def lastFourPixels (row : Byte) : State :=
  { withRegs [(0, 60), (1, 31)] with index := 0x300, mem := [(0x300, row)] }

/-- The checks in their order: a sprite byte at 0x1000, a set bit at pixel 2048, set bits up to pixel 2047 (the other
four bits of the row, beyond it, are 0); then a draw with a collision and one with none, `n = 0` among them. -/
theorem test_meets_DrawFlipsThePixelsUnderTheSprite :
    (∃ s, s.ea 1 = 0x1000 ∧ SpriteBeyondMemory s 2) ∧
    (∃ s, ¬SpriteBeyondMemory s 1 ∧ ∃ L, Covered s 0 1 1 L ∧ 2047 < L ∧ L = 2048) ∧
    (∃ s, ¬SpriteBeyondMemory s 1 ∧ (∀ L, Covered s 0 1 1 L → L ≤ 2047) ∧ Covered s 0 1 1 2047 ∧
      ¬Covered s 0 1 1 2043 ∧ ∀ L, Covered s 0 1 1 L → s.video.pixel L = false) ∧
    (∃ s, ¬SpriteBeyondMemory s 1 ∧ (∀ L, Covered s 0 1 1 L → L ≤ 2047) ∧
      ∃ L, Covered s 0 1 1 L ∧ s.video.pixel L = true) ∧
    ∃ s, s.index = 0x1234 ∧ ¬SpriteBeyondMemory s 0 ∧ ∀ L, Covered s 0 1 0 L → L ≤ 2047 := by
  have cells : ∀ L, Covered (lastFourPixels 0xF0) 0 1 1 L → L ∈ [2044, 2045, 2046, 2047] := fun L h =>
    (show (lastFourPixels 0xF0).drawCells 0 1 1 = [2044, 2045, 2046, 2047] by decide) ▸
      (State.mem_drawCells _ _ _ _ L).2 h
  refine ⟨⟨{ State.reset with index := 0x0FFF }, by decide, by decide, by decide⟩,
    ⟨lastFourPixels 0xF8, fun h => absurd h.2 (by decide), 2048, ⟨0, 4, by decide⟩, by decide, rfl⟩,
    ⟨lastFourPixels 0xF0, fun h => absurd h.2 (by decide), fun L h => ?_, ⟨0, 3, by decide⟩, fun h => ?_, fun L h => ?_⟩,
    ⟨{ lastFourPixels 0xF0 with video := State.reset.video.toggle 2044 }, fun h => absurd h.2 (by decide),
      fun L h => ?_, 2044, ⟨0, 0, by decide⟩, by decide⟩,
    { State.reset with index := 0x1234 }, rfl, fun h => absurd h.1 (by decide), fun L h => ?_⟩
  · have := cells L h; simp at this; omega
  · have := cells _ h; simp at this
  · exact Video.pixel_clear L
  · have := cells L h; simp at this; omega
  · obtain ⟨r, c, hr, -⟩ := h; exact absurd hr (Nat.not_lt_zero r)

/-- A first draw that turned pixels on. -/
theorem test_meets_DrawingTwiceRestoresTheFramebuffer :
    ∃ s t : State, s.fault = 0 ∧ exec (.drw 0 1 5) s = .next t ∧ t.fault = 0 ∧ t.video ≠ s.video ∧
      (t.reg 0).toNat % 64 = (s.reg 0).toNat % 64 ∧ (t.reg 1).toNat % 32 = (s.reg 1).toNat % 32 :=
  ⟨{ State.reset with index := 0x0300, mem := [(0x300, 0xF0), (0x304, 0xF0)] }, _,
    by decide, rfl, by decide, by decide, by decide, by decide⟩

/-- The last key number, and the first value above it. -/
theorem test_meets_SkipsOnAKey :
    (∃ (x : RegNum) (s : State), s.reg x = 16 ∧ 15 < (s.reg x).toNat) ∧
    ∃ (x : RegNum) (s : State), s.reg x = 15 ∧ (s.reg x).toNat ≤ 15 :=
  ⟨⟨1, withRegs [(1, 16)], by decide⟩, 1, withRegs [(1, 15)], by decide⟩

/-- No key, key 0 with others, key 15 alone. -/
theorem test_meets_KeyWaitTakesTheLeastKey :
    (∃ s : State, s.keys = 0) ∧
    (∃ s : State, s.keys.getLsbD (0 : Fin 16).val = true ∧ ∀ j : Fin 16, j < 0 → s.keys.getLsbD j.val = false) ∧
    ∃ s : State, s.keys.getLsbD (15 : Fin 16).val = true ∧ ∀ j : Fin 16, j < 15 → s.keys.getLsbD j.val = false :=
  ⟨⟨State.reset, by decide⟩, ⟨{ State.reset with keys := 0x8001 }, by decide⟩,
    { State.reset with keys := 0x8000 }, by decide⟩

theorem test_meets_TimersAreWritten : ∃ s : State, s.fault = 0 := ⟨State.reset, by decide⟩

/-- A byte of the image, and an address above it. -/
theorem test_meets_LoadCopiesTheImage :
    ∃ (image : List Byte) (s : State) (i a : Nat) (b : Byte), s.started = false ∧ s.mem.wf = true ∧ i < 3584 ∧
      image[i]? = some b ∧ ¬(0x200 ≤ a ∧ a < 0x200 + min image.length 3584) :=
  ⟨[0x60, 0x05], State.reset, 1, 0x202, 0x05, by decide⟩

end Sys2Proof.Tests
end

section
/-! SUPPORT. What the host's requests answer, and what the step request does when it is not honoured. -/

namespace Sys2Proof.Machine

/-! ### Requests that are not honoured -/

/-- A step request that is not honoured changes nothing (10_state.md R40). -/
theorem step_of_not_honoured {s : State} (h : ¬(s.running = true ∧ s.fault = 0)) : step s = .next s :=
  if_neg fun hh => h ((State.honours_iff s).1 hh)

/-- A state that a step answers unchanged is answered unchanged by every run. -/
theorem run_of_step_self {M : Host.Core} {s : M.State} (h : M.step s = .next s) (k : Nat) : M.run k s = .next s := by
  induction k with
  | zero => rfl
  | succ k ih => rw [Host.Core.run, h]; exact ih

/-! ### The load request -/

/-- A load before the first cycle is accepted and writes memory alone (R44). -/
theorem hostLoad_of_not_started {s : State} (image : List Byte) (h : s.started = false) :
    hostLoad image s = .next { s with mem := loadImage s.mem image } :=
  if_neg (by simp [h])

/-- A load that is accepted came before the first cycle, and wrote memory alone (R44). -/
theorem hostLoad_next {s t : State} {image : List Byte} (h : hostLoad image s = .next t) :
    s.started = false ∧ t = { s with mem := loadImage s.mem image } := by
  by_cases hs : s.started = true
  · rw [hostLoad, if_pos hs] at h
    cases h
  · rw [hostLoad, if_neg hs] at h
    cases h
    exact ⟨Bool.eq_false_of_not_eq_true hs, rfl⟩

/-- A read after the load: the first 3584 bytes of the image from 0x200 upward, every other address as before. -/
theorem read_loadImage {m : Memory} (hm : m.wf = true) (image : List Byte) (c : Nat) :
    (loadImage m image).read c =
      if h : 0x200 ≤ c ∧ c < 0x200 + min image.length 3584 then image[c - 0x200]'(by omega) else m.read c := by
  have hlen : (image.take 3584).length = min image.length 3584 := by rw [List.length_take, Nat.min_comm]
  rw [loadImage, Memory.read_writeBytes _ hm (by omega)]
  simp only [hlen, List.getElem_take]

/-! ### The reset state -/

@[simp] theorem State.reg_reset (z : RegNum) : State.reset.reg z = 0 := by
  simp [State.reg, State.reset]

/-- Memory after reset lists nothing, so every address reads as its reset contents (20_memory.md R51). -/
@[simp] theorem State.read_reset (a : Nat) : State.reset.mem.read a = Memory.resetByte a := rfl

end Sys2Proof.Machine
end

section
/-! Stop, reset and load: the statements about the host's requests. -/

namespace Sys2Proof.Proofs

open Sys2Proof.Machine

/-- Settles O5: a stopped core honours no step request, so every run stands still. -/
theorem stopRequestEndsTheRun : Obligations.StopRequestEndsTheRun := by
  intro s
  have hstep : step (hostStop s) = .next (hostStop s) := step_of_not_honoured (by simp [hostStop])
  refine ⟨rfl, rfl, run_of_step_self (M := core) hstep, fun _ => rfl, fun image t h => ?_, rfl⟩
  obtain ⟨-, rfl⟩ := hostLoad_next h
  rfl

/-- Settles O59: the load is accepted, and `read_loadImage` says what every address then holds. -/
theorem loadCopiesTheImage : Obligations.LoadCopiesTheImage := by
  intro image s hstart hwf
  refine ⟨_, hostLoad_of_not_started image hstart, fun i b hi hb => ?_, fun a ha => ?_, rfl⟩
  · obtain ⟨hlt, hget⟩ := List.getElem?_eq_some_iff.1 hb
    have hin : 0x200 ≤ 0x200 + i ∧ 0x200 + i < 0x200 + min image.length 3584 := by omega
    simp only [read_loadImage hwf, dif_pos hin, Nat.add_sub_cancel_left, hget]
  · exact (read_loadImage hwf image a).trans (dif_neg ha)

/-- Settles O58: the reset state's fields, and memory by its reset contents inside and outside the glyph set. -/
theorem resetGivesTheStatedValues : Obligations.ResetGivesTheStatedValues := by
  refine ⟨fun _ => rfl, State.reg_reset, rfl, rfl, fun k => ?stack, rfl, rfl, rfl, fun d j => ?glyphs,
    fun a _ h => Memory.resetByte_outside h, fun L _ => Video.pixel_clear L, rfl, rfl, rfl, rfl⟩
  case stack => simp [State.reset]
  case glyphs =>
    rw [Nat.add_assoc, State.read_reset]
    exact Memory.resetByte_glyph (5 * d.val + j.val) (by omega)

end Sys2Proof.Proofs
end

section
/-! SUPPORT. What an instruction can do to the elements no instruction writes of itself, and the word a cycle leaves in
`opcode`. -/

namespace Sys2Proof.Machine

/-! ### The elements an instruction leaves to the cycle -/

/-- `t` holds the fetched word, the run state, the inputs and the cycle's own records as `s` does: the elements that no
meaning writes (10_state.md R31, R32, R34, R39). -/
structure KeepsCycleState (s t : State) : Prop where
  opcode : t.opcode = s.opcode
  running : t.running = s.running
  fault : t.fault = s.fault
  keys : t.keys = s.keys
  rnd : t.rnd = s.rnd
  cycle : t.cycle = s.cycle
  report : t.report = s.report
  started : t.started = s.started

/-- `t` is what an instruction can make of `s`: a fault of an instruction and nothing else (60_exceptions.md R206), or a
state that keeps the elements of the cycle. -/
def FaultsOrKeeps (s t : State) : Prop :=
  (∃ c, c ≠ FaultCause.fetchRange ∧ t = raise c s) ∨ KeepsCycleState s t

/-- A meaning that keeps the elements of the cycle and cannot fault. -/
theorem FaultsOrKeeps.of_next {s t u : State} (h : (.next u : Host.Outcome State Fault Refusal) = .next t)
    (hu : KeepsCycleState s u) : FaultsOrKeeps s t := by
  cases h
  exact .inr hu

/-- A meaning that starts with the check of a fault: it takes the fault, or does what follows the check. -/
theorem FaultsOrKeeps.of_check {s t : State} {p : Prop} [Decidable p] {c : FaultCause}
    {o : Host.Outcome State Fault Refusal} (hc : c ≠ .fetchRange)
    (h : (if p then .next (raise c s) else o) = .next t) (ho : o = .next t → FaultsOrKeeps s t) :
    FaultsOrKeeps s t := by
  split at h
  · cases h
    exact .inl ⟨c, hc, rfl⟩
  · exact ho h

theorem State.waitKey_keepsCycleState (x : RegNum) (s : State) : KeepsCycleState s (State.waitKey x s) := by
  unfold State.waitKey
  split <;> constructor <;> rfl

theorem execRet_faultsOrKeeps {s t : State} (h : execRet s = .next t) : FaultsOrKeeps s t := by
  refine .of_check (c := .stackUnderflow) (by decide) h fun h => ?_
  split at h
  · exact .of_next h (by constructor <;> rfl)
  · cases h

theorem execCall_faultsOrKeeps {nnn : Addr12} {s t : State} (h : execCall nnn s = .next t) : FaultsOrKeeps s t := by
  refine .of_check (c := .stackOverflow) (by decide) h fun h => ?_
  split at h
  · exact .of_next h (by constructor <;> rfl)
  · cases h

/-- Every instruction that answers a next state took one of its own faults, which discards everything else it would
have done, or kept the elements of the cycle. -/
theorem exec_faultsOrKeeps {i : Instr} {s t : State} (h : exec i s = .next t) : FaultsOrKeeps s t := by
  cases i with
  | ret _ => exact execRet_faultsOrKeeps h
  | call _ => exact execCall_faultsOrKeeps h
  | drw _ _ _ =>
    exact .of_check (c := .memRange) (by decide) h fun h =>
      .of_check (c := .videoRange) (by decide) h fun h => .of_next h (by constructor <;> rfl)
  | skp _ | sknp _ =>
    exact .of_check (c := .keyRange) (by decide) h fun h => .of_next h (by constructor <;> rfl)
  | ldBcd _ | storeRegs _ | loadRegs _ =>
    exact .of_check (c := .memRange) (by decide) h fun h => .of_next h (by constructor <;> rfl)
  | ldVxK x => exact .of_next h (State.waitKey_keepsCycleState x s)
  | _ => exact .of_next h (by constructor <;> rfl)

/-- No instruction writes `opcode`, whether it takes a fault or not (10_state.md R31). -/
theorem exec_opcode {i : Instr} {s t : State} (h : exec i s = .next t) : t.opcode = s.opcode := by
  obtain ⟨c, -, rfl⟩ | hkeep := exec_faultsOrKeeps h
  · exact raise_opcode s c
  · exact hkeep.opcode

/-! ### The fetched word after the cycle -/

/-- After a cycle whose fetch was in range, `opcode` is the word fetched, whether the word selected an instruction or
not (20_memory.md R54). -/
theorem step_opcode {s t : State} (hrun : s.running = true) (hfault : s.fault = 0) (hpc : s.pc.toNat ≤ 0xFFE)
    (h : step s = .next t) : t.opcode = s.fetchWord := by
  obtain ⟨hbeyond, -⟩ | ⟨-, i, u, -, hexec, rfl⟩ | ⟨-, -, rfl⟩ := step_cases hrun hfault h
  · omega
  · rw [State.endCycle_opcode, exec_opcode hexec, State.fetched_opcode, State.fetchWord_sampleInputs]
  · rfl

end Sys2Proof.Machine
end

section
/-! Memory: the statements about the fetch (20_memory.md). -/

namespace Sys2Proof.Proofs

open Sys2Proof.Machine

/-- Settles O3: `step_opcode` and the value of a word of two bytes in range; beyond it, the state the fault leaves. -/
theorem fetchIsBigEndianAndRangeChecked : Obligations.FetchIsBigEndianAndRangeChecked := by
  refine ⟨fun s t hrun hfault hpc h => ?_, fun s hrun hfault hpc => ?_⟩
  · rw [step_opcode hrun hfault hpc h]
    exact toNat_wordOfBytes _ _
  · exact ⟨raise .fetchRange s.sampleInputs, step_of_fetchRange hrun hfault hpc, rfl, rfl, rfl⟩

end Sys2Proof.Proofs
end

section
/-! SUPPORT. The word an instruction was decoded from, and the row of the opcode map a word decodes to: the row depends
on the keys of R73 alone (30_encoding.md). -/

namespace Sys2Proof

/-! ### The decoder keeps every bit of the word -/

theorem wordNNN_of_key {w : Word} {op : Nibble} (ho : opField w = op) : wordNNN op (nnnField w) = w :=
  ho ▸ wordNNN_fields w

theorem wordXKK_of_keys {w : Word} {op : Nibble} {kk : Byte} (ho : opField w = op) (hk : kkField w = kk) :
    wordXKK op (highField w) kk = w :=
  ho ▸ hk ▸ wordXKK_fields w

theorem wordXYN_of_keys {w : Word} {op n : Nibble} (ho : opField w = op) (hn : nField w = n) :
    wordXYN op (highField w) (regField (yField w)) n = w :=
  ho ▸ hn ▸ wordXYN_fields w

theorem encode_of_decodeGroup0 {w : Word} {i : Instr} (ho : opField w = 0x0) (h : decodeGroup0 w = .ok i) :
    encode i = w := by
  unfold decodeGroup0 at h
  split at h <;> cases h <;> exact wordXKK_of_keys ho ‹kkField w = _›

theorem encode_of_decodeGroup8 {w : Word} {i : Instr} (ho : opField w = 0x8) (h : decodeGroup8 w = .ok i) :
    encode i = w := by
  unfold decodeGroup8 at h
  split at h <;> cases h <;> exact wordXYN_of_keys ho ‹nField w = _›

theorem encode_of_decodeGroupE {w : Word} {i : Instr} (ho : opField w = 0xE) (h : decodeGroupE w = .ok i) :
    encode i = w := by
  unfold decodeGroupE at h
  split at h <;> cases h <;> exact wordXKK_of_keys ho ‹kkField w = _›

theorem encode_of_decodeGroupF {w : Word} {i : Instr} (ho : opField w = 0xF) (h : decodeGroupF w = .ok i) :
    encode i = w := by
  unfold decodeGroupF at h
  split at h <;> cases h <;> exact wordXKK_of_keys ho ‹kkField w = _›

/-- An instruction that was decoded encodes to the word it came from. -/
theorem encode_of_decode {w : Word} {i : Instr} (h : decode w = .ok i) : encode i = w := by
  unfold decode at h
  split at h
  case h_1 ho => exact encode_of_decodeGroup0 ho h
  case h_9 ho => exact encode_of_decodeGroup8 ho h
  case h_15 ho => exact encode_of_decodeGroupE ho h
  case h_16 ho => exact encode_of_decodeGroupF ho h
  case h_2 ho | h_3 ho | h_11 ho | h_12 ho => cases h; exact wordNNN_of_key ho
  case h_4 ho | h_5 ho | h_7 ho | h_8 ho | h_13 ho => cases h; exact wordXKK_of_keys ho rfl
  case h_6 ho | h_10 ho | h_14 ho => cases h; exact wordXYN_of_keys ho rfl
  case h_17 => cases h

/-- The family `EncodesItsRow`, over all instructions. -/
theorem encodesItsRow (i : Instr) : Laws.EncodesItsRow.Statement i := by
  cases i with
  | cls m => exact Laws.EncodesItsRow.cls m
  | ret m => exact Laws.EncodesItsRow.ret m
  | jp nnn => exact Laws.EncodesItsRow.jp nnn
  | call nnn => exact Laws.EncodesItsRow.call nnn
  | seImm x kk => exact Laws.EncodesItsRow.seImm x kk
  | sneImm x kk => exact Laws.EncodesItsRow.sneImm x kk
  | seReg x y n => exact Laws.EncodesItsRow.seReg x y n
  | ldImm x kk => exact Laws.EncodesItsRow.ldImm x kk
  | addImm x kk => exact Laws.EncodesItsRow.addImm x kk
  | ldReg x y => exact Laws.EncodesItsRow.ldReg x y
  | orReg x y => exact Laws.EncodesItsRow.orReg x y
  | andReg x y => exact Laws.EncodesItsRow.andReg x y
  | xorReg x y => exact Laws.EncodesItsRow.xorReg x y
  | addReg x y => exact Laws.EncodesItsRow.addReg x y
  | subReg x y => exact Laws.EncodesItsRow.subReg x y
  | shr x y => exact Laws.EncodesItsRow.shr x y
  | subnReg x y => exact Laws.EncodesItsRow.subnReg x y
  | shl x y => exact Laws.EncodesItsRow.shl x y
  | sneReg x y n => exact Laws.EncodesItsRow.sneReg x y n
  | ldI nnn => exact Laws.EncodesItsRow.ldI nnn
  | jpV0 nnn => exact Laws.EncodesItsRow.jpV0 nnn
  | rnd x kk => exact Laws.EncodesItsRow.rnd x kk
  | drw x y n => exact Laws.EncodesItsRow.drw x y n
  | skp x => exact Laws.EncodesItsRow.skp x
  | sknp x => exact Laws.EncodesItsRow.sknp x
  | ldVxDt x => exact Laws.EncodesItsRow.ldVxDt x
  | ldVxK x => exact Laws.EncodesItsRow.ldVxK x
  | ldDtVx x => exact Laws.EncodesItsRow.ldDtVx x
  | ldStVx x => exact Laws.EncodesItsRow.ldStVx x
  | addI x => exact Laws.EncodesItsRow.addI x
  | ldGlyph x => exact Laws.EncodesItsRow.ldGlyph x
  | ldBcd x => exact Laws.EncodesItsRow.ldBcd x
  | storeRegs x => exact Laws.EncodesItsRow.storeRegs x
  | loadRegs x => exact Laws.EncodesItsRow.loadRegs x

/-! ### The row a word decodes to -/

/-- The row of the instruction an answer of the decoder holds, if it holds one. -/
def rowOf (d : Except DecodeError Instr) : Option OpcodeRow := d.toOption.map Instr.row

theorem rowOf_eq_some {d : Except DecodeError Instr} {r : OpcodeRow} :
    rowOf d = some r ↔ ∃ i, d = .ok i ∧ i.row = r := by
  cases d <;> simp [rowOf, Except.toOption]

theorem decode_group0 {w : Word} (ho : opField w = 0x0) : decode w = decodeGroup0 w := by simp [decode, ho]

theorem decode_group8 {w : Word} (ho : opField w = 0x8) : decode w = decodeGroup8 w := by simp [decode, ho]

theorem decode_groupE {w : Word} (ho : opField w = 0xE) : decode w = decodeGroupE w := by simp [decode, ho]

theorem decode_groupF {w : Word} (ho : opField w = 0xF) : decode w = decodeGroupF w := by simp [decode, ho]

/-- The groups 1 to 7, 9 and A to D have no secondary key (R73 (a)). -/
theorem rowOf_decode_of_op {w p : Word} (hp : opField p ∉ [0x0#4, 0x8#4, 0xE#4, 0xF#4]) (ho : opField w = opField p) :
    rowOf (decode w) = rowOf (decode p) := by
  unfold decode
  rw [ho]
  split
  case h_1 h | h_9 h | h_15 h | h_16 h => simp [h] at hp
  all_goals rfl

/-- Group 8 has the low nibble as its secondary key (R73 (b)). -/
theorem rowOf_decode_of_n {w p : Word} (hp : opField p = 0x8) (ho : opField w = opField p)
    (hn : nField w = nField p) : rowOf (decode w) = rowOf (decode p) := by
  rw [decode_group8 (ho.trans hp), decode_group8 hp, decodeGroup8, decodeGroup8, hn]
  split <;> rfl

/-- The groups 0, E and F have the low byte as their secondary key (R73 (c)). -/
theorem rowOf_decode_of_kk {w p : Word} (hp : opField p ∈ [0x0#4, 0xE#4, 0xF#4]) (ho : opField w = opField p)
    (hk : kkField w = kkField p) : rowOf (decode w) = rowOf (decode p) := by
  obtain h0 | hE | hF : opField p = 0x0 ∨ opField p = 0xE ∨ opField p = 0xF := by simpa using hp
  · rw [decode_group0 (ho.trans h0), decode_group0 h0, decodeGroup0, decodeGroup0, hk]
    split <;> rfl
  · rw [decode_groupE (ho.trans hE), decode_groupE hE, decodeGroupE, decodeGroupE, hk]
    split <;> rfl
  · rw [decode_groupF (ho.trans hF), decode_groupF hF, decodeGroupF, decodeGroupF, hk]
    split <;> rfl

/-- The mask of a row covers the keys of the row's group, and no other bit (R73, R74). -/
theorem mask_of_mem_opcodeMap {r : OpcodeRow} (hr : r ∈ opcodeMap) :
    (r.mask = 0xF000 ∧ opField r.pattern ∉ [0x0#4, 0x8#4, 0xE#4, 0xF#4]) ∨
    (r.mask = 0xF00F ∧ opField r.pattern = 0x8) ∨
    (r.mask = 0xF0FF ∧ opField r.pattern ∈ [0x0#4, 0xE#4, 0xF#4]) := by
  revert r
  decide

theorem rowOf_decode_pattern {r : OpcodeRow} (hr : r ∈ opcodeMap) : rowOf (decode r.pattern) = some r := by
  revert r
  decide

/-- A word that selects a row of the map decodes to that row. -/
theorem rowOf_decode_of_selects {w : Word} {r : OpcodeRow} (hr : r ∈ opcodeMap) (h : w &&& r.mask = r.pattern) :
    rowOf (decode w) = some r := by
  rw [← rowOf_decode_pattern hr]
  obtain ⟨hm, hp⟩ | ⟨hm, hp⟩ | ⟨hm, hp⟩ := mask_of_mem_opcodeMap hr <;> rw [hm] at h
  · exact rowOf_decode_of_op hp (opField_of_mask (by decide) h)
  · exact rowOf_decode_of_n hp (opField_of_mask (by decide) h) (nField_of_mask h)
  · exact rowOf_decode_of_kk hp (opField_of_mask (by decide) h) (kkField_of_mask h)

end Sys2Proof
end

section
/-! Decoding: the statement about the opcode map (30_encoding.md). -/

namespace Sys2Proof.Proofs

/-- Settles O12: the word of a decoded instruction is its encoding, which selects its row; a word that selects a row has
the keys of the row's pattern, and the decoder looks at nothing else to find the row. -/
theorem decoderFollowsTheOpcodeMap : Obligations.DecoderFollowsTheOpcodeMap := by
  refine ⟨rfl, fun w i h => ?_, fun w r hr h => rowOf_eq_some.1 (rowOf_decode_of_selects hr h)⟩
  have hrow := encodesItsRow i
  rwa [Laws.EncodesItsRow.Statement, encode_of_decode h] at hrow

end Sys2Proof.Proofs
end

section
/-! SUPPORT. The decoder reads back every word the encoder builds (30_encoding.md R71 to R74), and so the number of an
instruction's word decodes to the instruction. -/

namespace Sys2Proof

open Sys2Proof.Machine Sys2Proof.Claims

/-- The word of an instruction decodes to the instruction: by the format and the group of the word. -/
theorem decode_encode (i : Instr) : decode (encode i) = .ok i := by
  cases i with
  | jp | call | ldI | jpV0 => simp [encode, decode]
  | seImm | sneImm | ldImm | addImm | rnd => simp [encode, decode]
  | seReg | sneReg | drw => simp [encode, decode]
  | cls | ret => simp [encode, decode, decodeGroup0]
  | ldReg | orReg | andReg | xorReg | addReg | subReg | shr | subnReg | shl => simp [encode, decode, decodeGroup8]
  | skp | sknp => simp [encode, decode, decodeGroupE]
  | ldVxDt | ldVxK | ldDtVx | ldStVx | addI | ldGlyph | ldBcd | storeRegs | loadRegs =>
    simp [encode, decode, decodeGroupF]

/-- A number decodes to the instruction whose word it is; `toNat_wordNNN`, `toNat_wordXKK` and `toNat_wordXYN` give the
number of a word. -/
theorem decodes_of_toNat_encode {w : Nat} {i : Instr} (h : (encode i).toNat = w) : Decodes w i := by
  rw [Decodes, ← h, BitVec.ofNat_toNat, BitVec.setWidth_eq]
  exact decode_encode i

end Sys2Proof
end

section
/-! SUPPORT. Control transfer: targets as numbers, what a jump, a skip and a push leave, and what `RET` and `CALL` do
with the stack in each of its conditions (40_flow.md R101, R102). -/

namespace Sys2Proof.Machine

/-! ### Jumps and their targets -/

theorem toNat_zextAddr (nnn : Addr12) : (zextAddr nnn).toNat = nnn.toNat :=
  BitVec.toNat_setWidth_of_le (by decide)

theorem toNat_zextByte (b : Byte) : (zextByte b).toNat = b.toNat :=
  BitVec.toNat_setWidth_of_le (by decide)

/-- The sum of an address and a byte stays below 65536, so that adding words does not reduce it (R108). -/
theorem toNat_zextAddr_add_zextByte (nnn : Addr12) (b : Byte) :
    (zextAddr nnn + zextByte b).toNat = nnn.toNat + b.toNat := by
  have hnnn := nnn.isLt
  have hb := b.isLt
  rw [BitVec.toNat_add, toNat_zextAddr, toNat_zextByte]
  omega

/-- A jump writes the program counter and nothing else. -/
theorem State.jump_pcOnly (a : Word) (s : State) : { State.jump a s with pc := s.pc } = s := rfl

/-! ### Skips on a comparison -/

theorem State.skipIf_beq_pc_toNat (a b : Byte) (s : State) :
    (State.skipIf (a == b) s).pc.toNat = if a = b then (s.pc.toNat + 2) % 65536 else s.pc.toNat := by
  simp only [State.skipIf_pc_toNat, beq_iff_eq]

theorem State.skipIf_bne_pc_toNat (a b : Byte) (s : State) :
    (State.skipIf (a != b) s).pc.toNat = if a = b then s.pc.toNat else (s.pc.toNat + 2) % 65536 := by
  simp only [State.skipIf_pc_toNat, bne_iff_ne, ne_eq, ite_not]

/-! ### The return stack -/

/-- A push writes the entry `stack[sp]` and no other. -/
theorem State.stack_push {s : State} {k : Fin 16} (hsp : s.sp.toNat = k.val) (a : Word) (j : Fin 16) :
    (State.push a s).stack[j] = if j = k then a else s.stack[j] := by
  simp only [State.push_stack, hsp, Fin.getElem_fin, Vector.getElem_setIfInBounds, Fin.ext_iff, eq_comm]

theorem State.push_sp_toNat {s : State} (hsp : s.sp.toNat < 16) (a : Word) :
    (State.push a s).sp.toNat = s.sp.toNat + 1 := by
  rw [State.push_sp]
  bv_omega

theorem exec_ret_of_empty (m : Nibble) {s : State} (hsp : s.sp = 0) :
    exec (.ret m) s = .next (raise .stackUnderflow s) :=
  if_pos hsp

theorem exec_ret_of_stacked (m : Nibble) {s : State} {k : Fin 16} (hsp : s.sp.toNat = k.val + 1) :
    exec (.ret m) s = .next (State.jump s.stack[k] { s with sp := s.sp - 1 }) := by
  have hne : s.sp ≠ 0 := fun h => by simp [h] at hsp
  have htop : s.stackEntry (s.sp.toNat - 1) = some s.stack[k] := by
    rw [hsp, Nat.add_sub_cancel, State.stackEntry_eq, dif_pos k.isLt]
    rfl
  show execRet s = _
  rw [execRet, if_neg hne, htop]

theorem exec_call_of_full (nnn : Addr12) {s : State} (hsp : s.sp = 16) :
    exec (.call nnn) s = .next (raise .stackOverflow s) :=
  if_pos hsp

theorem exec_call_of_room (nnn : Addr12) {s : State} (hsp : s.sp.toNat < 16) :
    exec (.call nnn) s = .next (State.jump (zextAddr nnn) (State.push s.pc s)) := by
  have hne : s.sp ≠ 16 := fun h => by simp [h] at hsp
  show execCall nnn s = _
  rw [execCall, if_neg hne, if_pos hsp]

end Sys2Proof.Machine
end

section
/-! Control transfer: the statements about jumps, skips, `CALL` and `RET` (40_flow.md). -/

namespace Sys2Proof.Proofs

open Sys2Proof.Machine

/-- Settles O27: `exec_ret_of_empty` and `exec_ret_of_stacked` are the two conditions of the stack. -/
theorem retPopsTheReturnAddress : Obligations.RetPopsTheReturnAddress := by
  refine ⟨decodes_of_toNat_encode (toNat_wordXKK 0x0 0 0xEE), fun m s hsp => exec_ret_of_empty m hsp,
    fun m s k hsp => ⟨_, exec_ret_of_stacked m hsp, ?_, rfl, rfl⟩⟩
  show (s.sp - 1).toNat = k.val
  bv_omega

/-- Settles O28: `exec_call_of_full` and `exec_call_of_room` are the two conditions of the stack, and `stack_push` gives
every entry after the push. -/
theorem callPushesTheReturnAddress : Obligations.CallPushesTheReturnAddress := by
  refine ⟨fun nnn => decodes_of_toNat_encode (toNat_wordNNN 0x2 nnn), fun nnn s hsp => exec_call_of_full nnn hsp,
    fun nnn s k hsp => ?_⟩
  have hroom : s.sp.toNat < 16 := hsp ▸ k.isLt
  refine ⟨_, exec_call_of_room nnn hroom, ?_, fun j hj => ?_, ?_, toNat_zextAddr nnn, rfl⟩
  · exact (State.stack_push hsp s.pc k).trans (if_pos rfl)
  · exact (State.stack_push hsp s.pc j).trans (if_neg hj)
  · exact hsp ▸ State.push_sp_toNat hroom s.pc

/-- Settles O30: the target is the zero-extended address, and a jump writes `pc` alone. -/
theorem jumpSetsThePc : Obligations.JumpSetsThePc := fun nnn =>
  ⟨decodes_of_toNat_encode (toNat_wordNNN 0x1 nnn), fun s => ⟨_, rfl, toNat_zextAddr nnn, State.jump_pcOnly _ s⟩⟩

/-- Settles O31: the sum of address and byte fits in a word, and a jump writes `pc` alone. -/
theorem jumpWithOffsetAddsV0 : Obligations.JumpWithOffsetAddsV0 := fun nnn =>
  ⟨decodes_of_toNat_encode (toNat_wordNNN 0xB nnn),
    fun s => ⟨_, rfl, toNat_zextAddr_add_zextByte nnn (s.reg 0), State.jump_pcOnly _ s⟩⟩

/-- Settles O32: a skip on equality or on difference with the immediate. -/
theorem skipsOnAnImmediate : Obligations.SkipsOnAnImmediate := fun x kk =>
  ⟨decodes_of_toNat_encode (toNat_wordXKK 0x3 (regField x) kk),
    decodes_of_toNat_encode (toNat_wordXKK 0x4 (regField x) kk), fun s =>
    ⟨⟨_, rfl, State.skipIf_pcOnly _ s, State.skipIf_beq_pc_toNat (s.reg x) kk s⟩,
      ⟨_, rfl, State.skipIf_pcOnly _ s, State.skipIf_bne_pc_toNat (s.reg x) kk s⟩⟩⟩

/-- Settles O33: a skip on equality or on difference of the two registers. -/
theorem skipsOnTwoRegisters : Obligations.SkipsOnTwoRegisters := fun x y n =>
  ⟨decodes_of_toNat_encode (toNat_wordXYN 0x5 (regField x) (regField y) n),
    decodes_of_toNat_encode (toNat_wordXYN 0x9 (regField x) (regField y) n), fun s =>
    ⟨⟨_, rfl, State.skipIf_pcOnly _ s, State.skipIf_beq_pc_toNat (s.reg x) (s.reg y) s⟩,
      ⟨_, rfl, State.skipIf_pcOnly _ s, State.skipIf_bne_pc_toNat (s.reg x) (s.reg y) s⟩⟩⟩

end Sys2Proof.Proofs
end

section
/-! SUPPORT. Registers and arithmetic: what a register write leaves, with and without a flag after it, the flag values
as numbers, and the words of group 8 (41_alu.md). -/

namespace Sys2Proof

open Sys2Proof.Machine Sys2Proof.Claims

/-! ### The words of group 8 -/

/-- The number of a word of group 8 decodes to the instruction whose word it is; `n` is its secondary key (R73 (b)). -/
theorem decodes_group8 (n : Nibble) {x y : RegNum} {i : Instr}
    (h : encode i = wordXYN 0x8 (regField x) (regField y) n) :
    Decodes (0x8000 + n.toNat + 0x100 * x.val + 0x10 * y.val) i := by
  refine decodes_of_toNat_encode ?_
  have hx : (regField x).toNat = x.val := rfl
  have hy : (regField y).toNat = y.val := rfl
  have hop : (0x8 : Nibble).toNat = 8 := rfl
  rw [h, toNat_wordXYN, hx, hy, hop]
  omega

end Sys2Proof

namespace Sys2Proof.Machine

open Sys2Proof.Claims

/-! ### A register write -/

theorem State.setReg_onlyRegs (s : State) (x : RegNum) (r : Byte) : OnlyRegs s (s.setReg x r) := rfl

theorem State.reg_setReg_same (s : State) (x : RegNum) (r : Byte) : (s.setReg x r).reg x = r := by simp

theorem State.reg_setReg_of_ne (s : State) {x z : RegNum} (r : Byte) (hz : z ≠ x) :
    (s.setReg x r).reg z = s.reg z := by
  simp [hz]

/-! ### A register write and the flag after it -/

theorem State.setRegThenFlag_onlyRegs (s : State) (x : RegNum) (r f : Byte) : OnlyRegs s (s.setRegThenFlag x r f) := rfl

/-- The flag is the last write, so `VF` holds it for every destination, register 15 included (10_state.md R22). -/
theorem State.reg_setRegThenFlag_flag (s : State) (x : RegNum) (r f : Byte) : (s.setRegThenFlag x r f).reg 15 = f := by
  simp

theorem State.reg_setRegThenFlag_result (s : State) {x : RegNum} (r f : Byte) (hx : x ≠ 15) :
    (s.setRegThenFlag x r f).reg x = r := by
  simp [hx]

theorem State.reg_setRegThenFlag_of_ne (s : State) {x z : RegNum} (r f : Byte) (hz : z ≠ x) (hflag : z ≠ 15) :
    (s.setRegThenFlag x r f).reg z = s.reg z := by
  simp [hz, hflag]

/-! ### Flag values and differences as numbers -/

theorem flagOf_decide (p : Prop) [Decidable p] : flagOf (decide p) = if p then 1 else 0 := by
  simp [flagOf]

/-- A bit as a flag is the bit's number. -/
theorem toNat_flagOf (c : Bool) : (flagOf c).toNat = c.toNat := by
  cases c <;> rfl

theorem toNat_shiftedOutLow (a : Byte) : (shiftedOutLow a).toNat = a.toNat % 2 := by
  rw [shiftedOutLow, toNat_flagOf, BitVec.getLsbD, Nat.toNat_testBit, pow_zero, Nat.div_one]

/-- Bit 7 is the highest bit of a byte, so nothing stands above it. -/
theorem toNat_shiftedOutHigh (a : Byte) : (shiftedOutHigh a).toNat = a.toNat / 128 := by
  have ha := a.isLt
  rw [shiftedOutHigh, toNat_flagOf, BitVec.getLsbD, Nat.toNat_testBit]
  omega

/-- The difference of two bytes is their difference in the integers, reduced (41_alu.md R127). -/
theorem toNat_sub_eq_emod (a b : Byte) : ((a - b).toNat : Int) = ((a.toNat : Int) - b.toNat) % 256 := by
  have hb := b.isLt
  rw [BitVec.toNat_sub]
  omega

theorem toNat_shiftRight_one (a : Byte) : (a >>> 1).toNat = a.toNat / 2 := by
  rw [BitVec.toNat_ushiftRight, Nat.shiftRight_eq_div_pow, pow_one]

theorem toNat_shiftLeft_one (a : Byte) : (a <<< 1).toNat = 2 * a.toNat % 256 := by
  rw [BitVec.toNat_shiftLeft, Nat.shiftLeft_eq, pow_one, Nat.mul_comm]

/-! ### Meanings that share one shape -/

/-- A meaning that writes one register and no flag, its result given bit by bit: `OR`, `AND`, `XOR` and `RND`. -/
theorem exec_bitwise {i : Instr} {s : State} {x : RegNum} {r : Byte} {bit : Nat → Bool}
    (h : exec i s = .next (s.setReg x r)) (hr : ∀ b, r.getLsbD b = bit b) :
    ∃ t, exec i s = .next t ∧ OnlyRegs s t ∧ (∀ z, z ≠ x → t.reg z = s.reg z) ∧
      ∀ b < 8, (t.reg x).getLsbD b = bit b := by
  refine ⟨_, h, s.setReg_onlyRegs x r, fun z hz => s.reg_setReg_of_ne r hz, fun b _ => ?_⟩
  rw [State.reg_setReg_same, hr]

/-- A meaning that writes a result and then the flag: what holds of the flag value holds of `VF`, and what holds of the
result holds of `Vx` unless `Vx` is `VF`. -/
theorem exec_flagged {i : Instr} {s : State} {x : RegNum} {r f : Byte} (flagHas resultHas : Byte → Prop)
    (h : exec i s = .next (s.setRegThenFlag x r f)) (hf : flagHas f) (hr : resultHas r) :
    ∃ t, exec i s = .next t ∧ OnlyRegs s t ∧ flagHas (t.reg 15) ∧ (x ≠ 15 → resultHas (t.reg x)) ∧
      ∀ z, z ≠ x → z ≠ 15 → t.reg z = s.reg z := by
  refine ⟨_, h, s.setRegThenFlag_onlyRegs x r f, ?flag, fun hx => ?result,
    fun z hz hflag => s.reg_setRegThenFlag_of_ne r f hz hflag⟩
  case flag => rwa [State.reg_setRegThenFlag_flag]
  case result => rwa [State.reg_setRegThenFlag_result _ _ _ hx]

/-- A meaning that subtracts and sets the no-borrow flag: `SUB` and `SUBN`, which differ in the order of the
operands. -/
theorem exec_subtract {i : Instr} {s : State} {x : RegNum} {a b : Byte}
    (h : exec i s = .next (s.setRegThenFlag x (a - b) (noBorrowFlag a b))) :
    ∃ t, exec i s = .next t ∧ OnlyRegs s t ∧ t.reg 15 = (if a.toNat ≥ b.toNat then 1 else 0) ∧
      (x ≠ 15 → ((t.reg x).toNat : Int) = (a.toNat - b.toNat) % 256) ∧
      ∀ z, z ≠ x → z ≠ 15 → t.reg z = s.reg z :=
  exec_flagged (· = if a.toNat ≥ b.toNat then 1 else 0) (fun d => (d.toNat : Int) = (a.toNat - b.toNat) % 256) h
    (flagOf_decide _) (toNat_sub_eq_emod a b)

end Sys2Proof.Machine
end

section
/-! Registers, arithmetic, logic, shift, random: the statements about the register instructions (41_alu.md). -/

namespace Sys2Proof.Proofs

open Sys2Proof.Machine

/-- Settles O37: the three results bit by bit, each written to `Vx` alone. -/
theorem logicIsBitwiseWithoutFlag : Obligations.LogicIsBitwiseWithoutFlag := fun _ _ =>
  ⟨decodes_group8 1 rfl, decodes_group8 2 rfl, decodes_group8 3 rfl, fun _ =>
    ⟨exec_bitwise rfl fun _ => BitVec.getLsbD_or, exec_bitwise rfl fun _ => BitVec.getLsbD_and,
      exec_bitwise rfl fun _ => BitVec.getLsbD_xor⟩⟩

/-- Settles O38: the flag is the last write, so the sum stands in `Vx` only when `x` is not 15. -/
theorem addRegistersSetsTheCarry : Obligations.AddRegistersSetsTheCarry := fun x y =>
  ⟨decodes_group8 4 rfl, fun s =>
    exec_flagged (· = if (s.reg x).toNat + (s.reg y).toNat > 255 then 1 else 0)
      (·.toNat = ((s.reg x).toNat + (s.reg y).toNat) % 256) rfl (flagOf_decide _) (BitVec.toNat_add _ _)⟩

/-- Settles O39: one subtraction, with the operands in either order. -/
theorem subtractionsSetTheNoBorrowFlag : Obligations.SubtractionsSetTheNoBorrowFlag := fun _ _ =>
  ⟨decodes_group8 5 rfl, decodes_group8 7 rfl, fun _ => ⟨exec_subtract rfl, exec_subtract rfl⟩⟩

/-- Settles O40: the shifted value and the bit shifted out, as numbers; `y` stands in the word alone. -/
theorem shiftsSetTheBitShiftedOut : Obligations.ShiftsSetTheBitShiftedOut := fun x _ =>
  ⟨decodes_group8 6 rfl, decodes_group8 0xE rfl, fun s =>
    ⟨exec_flagged (·.toNat = (s.reg x).toNat % 2) (·.toNat = (s.reg x).toNat / 2) rfl
        (toNat_shiftedOutLow _) (toNat_shiftRight_one _),
      exec_flagged (·.toNat = (s.reg x).toNat / 128) (·.toNat = 2 * (s.reg x).toNat % 256) rfl
        (toNat_shiftedOutHigh _) (toNat_shiftLeft_one _)⟩⟩

/-- Settles O34: a register write of the immediate. -/
theorem loadImmediateAssigns : Obligations.LoadImmediateAssigns := fun x kk =>
  ⟨decodes_of_toNat_encode (toNat_wordXKK 0x6 (regField x) kk),
    fun s => ⟨_, rfl, s.setReg_onlyRegs x kk, fun z => s.reg_setReg x z kk⟩⟩

/-- Settles O35: a register write of the sum of bytes, which wraps. -/
theorem addImmediateWrapsWithoutFlag : Obligations.AddImmediateWrapsWithoutFlag := by
  refine fun x kk => ⟨decodes_of_toNat_encode (toNat_wordXKK 0x7 (regField x) kk),
    fun s => ⟨_, rfl, s.setReg_onlyRegs x _, ?sum, fun z hz => s.reg_setReg_of_ne _ hz⟩⟩
  case sum => rw [State.reg_setReg_same, BitVec.toNat_add]

/-- Settles O36: a register write of `Vy`, read before the write. -/
theorem copyRegister : Obligations.CopyRegister := fun x y =>
  ⟨decodes_group8 0 rfl, fun s => ⟨_, rfl, s.setReg_onlyRegs x _, fun z => s.reg_setReg x z (s.reg y)⟩⟩

/-- Settles O41: the random byte of the state, bit by bit under the mask, written to `Vx` alone. -/
theorem randomByteUnderTheMask : Obligations.RandomByteUnderTheMask := fun x kk =>
  ⟨decodes_of_toNat_encode (toNat_wordXKK 0xC (regField x) kk), fun _ =>
    exec_bitwise rfl fun _ => BitVec.getLsbD_and⟩

end Sys2Proof.Proofs
end

section
/-! SUPPORT. Index register, loads and stores: the words of group F, the operand values as numbers, the range check every
access starts with, and what a block store leaves in memory (42_index_memory.md R150 to R156). -/

namespace Sys2Proof

open Sys2Proof.Machine Sys2Proof.Claims

/-! ### The words of group F -/

/-- The number of a word of group F decodes to the instruction whose word it is; `kk` is its secondary key (R73 (c)). -/
theorem decodes_groupF (kk : Byte) {x : RegNum} {i : Instr} (h : encode i = wordXKK 0xF (regField x) kk) :
    Decodes (0xF000 + kk.toNat + 0x100 * x.val) i := by
  refine decodes_of_toNat_encode ?_
  have hop : (0xF : Nibble).toNat = 15 := rfl
  rw [h, toNat_wordXKK, toNat_regField, hop]
  omega

end Sys2Proof

namespace Sys2Proof.Machine

open Sys2Proof.Claims

/-! ### Operand values as numbers -/

theorem toNat_add_zextByte (a : Word) (b : Byte) : (a + zextByte b).toNat = (a.toNat + b.toNat) % 65536 := by
  rw [BitVec.toNat_add, toNat_zextByte]

/-- The address of a glyph stays below 65536 for every byte, a digit or not (R152). -/
theorem toNat_glyphAddress (b : Byte) : (glyphAddress b).toNat = 0x050 + 5 * b.toNat := by
  have hb := b.isLt
  rw [glyphAddress, BitVec.toNat_ofNat]
  omega

theorem toNat_byteOfNat_of_lt {n : Nat} (h : n < 256) : (byteOfNat n).toNat = n :=
  (BitVec.toNat_ofNat n 8).trans (Nat.mod_eq_of_lt h)

/-! ### The range check -/

/-- The meaning `o` of an access after the check of its last address `a` (20_memory.md R52, R53). -/
def checkedAccess (a : Nat) (s : State) (o : Host.Outcome State Fault Refusal) : Host.Outcome State Fault Refusal :=
  if beyondMemory a then .next (raise .memRange s) else o

theorem checkedAccess_of_beyond {a : Nat} (ha : 0xFFF < a) (s : State) (o : Host.Outcome State Fault Refusal) :
    checkedAccess a s o = .next (raise .memRange s) :=
  if_pos ((beyondMemory_eq_true a).2 ha)

theorem checkedAccess_of_within {a : Nat} (ha : a ≤ 0xFFF) (s : State) (o : Host.Outcome State Fault Refusal) :
    checkedAccess a s o = o :=
  if_neg fun h => absurd ((beyondMemory_eq_true a).1 h) (Nat.not_lt.2 ha)

/-- An instruction whose last address is beyond memory takes `MEM_RANGE`, and nothing is stored or loaded. -/
theorem faults_of_beyond {i : Instr} {s : State} {a : Nat} {o : Host.Outcome State Fault Refusal}
    (h : exec i s = checkedAccess a s o) (ha : 0xFFF < a) : Faults i s 2 :=
  h.trans (checkedAccess_of_beyond ha s o)

/-! ### A block store -/

/-- Store the bytes from `index` upward (20_memory.md R57). -/
def State.storeAtIndex (s : State) (bs : List Byte) : State := { s with mem := s.mem.writeBytes (s.ea 0) bs }

theorem State.storeAtIndex_onlyMemory (s : State) (bs : List Byte) : OnlyMemory s (s.storeAtIndex bs) := rfl

theorem State.storeAtIndex_mem (s : State) (bs : List Byte) :
    (s.storeAtIndex bs).mem = s.mem.writeBytes (s.ea 0) bs := rfl

theorem State.ea_eq_add (s : State) (j : Nat) : s.ea j = s.ea 0 + j := rfl

theorem exec_ldBcd_eq (x : RegNum) (s : State) :
    exec (.ldBcd x) s = checkedAccess (s.ea 2) s (.next (s.storeAtIndex (bcdDigits (s.reg x)))) := rfl

theorem exec_storeRegs_eq (x : RegNum) (s : State) :
    exec (.storeRegs x) s = checkedAccess (s.ea x.val) s (.next (s.storeAtIndex (s.regsUpTo x))) := rfl

/-- The bytes stored stand at `index` upward, when they fit in memory. -/
theorem State.read_storeAtIndex {s : State} {bs : List Byte} (hm : s.mem.wf = true) (hfit : s.ea bs.length ≤ 0x1000)
    {j : Nat} (hj : j < bs.length) : (s.storeAtIndex bs).mem.read (s.ea j) = bs[j] := by
  have hin : s.ea 0 ≤ s.ea j ∧ s.ea j < s.ea 0 + bs.length := by
    rw [s.ea_eq_add j]
    omega
  have hread := Memory.read_writeBytes bs hm (a := s.ea 0) hfit (s.ea j)
  rw [dif_pos hin] at hread
  simpa only [State.storeAtIndex_mem, s.ea_eq_add j, Nat.add_sub_cancel_left] using hread

/-- A store of `k + 1` bytes leaves every address outside `index` to `index + k` alone. -/
theorem State.read_storeAtIndex_outside {s : State} {bs : List Byte} {k a : Nat} (hm : s.mem.wf = true)
    (hlen : bs.length = k + 1) (ha : ¬(s.ea 0 ≤ a ∧ a ≤ s.ea k)) : (s.storeAtIndex bs).mem.read a = s.mem.read a := by
  refine Memory.read_writeBytes_outside bs hm ?_
  rw [s.ea_eq_add k] at ha
  omega

/-- A meaning that stores `k + 1` bytes from `index` upward after the check of `index + k`: `LD B` and `LD [I], Vx`, in
range. -/
theorem exec_blockStore {i : Instr} {s : State} {k : Nat} {bs : List Byte}
    (h : exec i s = checkedAccess (s.ea k) s (.next (s.storeAtIndex bs))) (hlen : bs.length = k + 1)
    (hfit : s.ea k ≤ 0xFFF) (hm : s.mem.wf = true) :
    ∃ t, exec i s = .next t ∧ (∀ j (hj : j < bs.length), t.mem.read (s.ea j) = bs[j]) ∧
      (∀ a, ¬(s.ea 0 ≤ a ∧ a ≤ s.ea k) → t.mem.read a = s.mem.read a) ∧ OnlyMemory s t := by
  have hend : s.ea bs.length ≤ 0x1000 := by
    rw [hlen]
    exact Nat.succ_le_succ hfit
  exact ⟨_, h.trans (checkedAccess_of_within hfit s _), fun _ hj => State.read_storeAtIndex hm hend hj,
    fun _ ha => State.read_storeAtIndex_outside hm hlen ha, s.storeAtIndex_onlyMemory bs⟩

/-! ### A block load -/

/-- Load `V0` to `Vx` from `index` upward; `State.reg_mapIdx` reads the registers after it (R155). -/
def State.loadAtIndex (s : State) (x : RegNum) : State :=
  { s with v := s.v.mapIdx fun i old => if i ≤ x.val then s.mem.read (s.ea i) else old }

theorem State.loadAtIndex_onlyRegs (s : State) (x : RegNum) : OnlyRegs s (s.loadAtIndex x) := rfl

theorem exec_loadRegs_eq (x : RegNum) (s : State) :
    exec (.loadRegs x) s = checkedAccess (s.ea x.val) s (.next (s.loadAtIndex x)) := rfl

end Sys2Proof.Machine
end

section
/-! Index register, loads and stores: the statements about the instructions of 42_index_memory.md. -/

namespace Sys2Proof.Proofs

open Sys2Proof.Machine

/-- Settles O45: a block store of the three digits, each of which fits in a byte. -/
theorem decimalDigitsAreStored : Obligations.DecimalDigitsAreStored := by
  refine fun x => ⟨decodes_groupF 0x33 rfl, fun s => ⟨faults_of_beyond (exec_ldBcd_eq x s), fun hfit hm => ?_⟩⟩
  have hbyte := (s.reg x).isLt
  obtain ⟨t, hexec, hstored, hframe, honly⟩ := exec_blockStore (exec_ldBcd_eq x s) (length_bcdDigits _) hfit hm
  have hdigit {j n : Nat} (hj : j < 3) (hn : n < 256) (heq : (bcdDigits (s.reg x))[j] = byteOfNat n) :
      (t.mem.read (s.ea j)).toNat = n := by
    rw [hstored j hj, heq, toNat_byteOfNat_of_lt hn]
  exact ⟨t, hexec, hdigit (by decide) (by omega) rfl, hdigit (by decide) (by omega) rfl,
    hdigit (by decide) (by omega) rfl, hframe, honly⟩

/-- Settles O46: a block store of `V0` to `Vx`, of which the `j`-th byte is `Vj`. -/
theorem registersAreStored : Obligations.RegistersAreStored := by
  refine fun x => ⟨decodes_groupF 0x55 rfl, fun s => ⟨faults_of_beyond (exec_storeRegs_eq x s), fun hfit hm => ?_⟩⟩
  obtain ⟨t, hexec, hstored, hframe, honly⟩ :=
    exec_blockStore (exec_storeRegs_eq x s) (s.length_regsUpTo x) hfit hm
  refine ⟨t, hexec, fun j hj => ?registers, hframe, honly⟩
  case registers =>
    have hlt : j.val < (s.regsUpTo x).length := by
      rw [State.length_regsUpTo]
      exact Nat.lt_succ_of_le hj
    exact (hstored j hlt).trans (s.getElem_regsUpTo x j hlt)

/-- Settles O47: a block load, read register by register. -/
theorem registersAreLoaded : Obligations.RegistersAreLoaded := fun x =>
  ⟨decodes_groupF 0x65 rfl, fun s => ⟨faults_of_beyond (exec_loadRegs_eq x s), fun hfit =>
    ⟨_, (exec_loadRegs_eq x s).trans (checkedAccess_of_within hfit s _), s.loadAtIndex_onlyRegs x, s.reg_mapIdx x⟩⟩⟩

/-- Settles O42: zero extension keeps the number of the address. -/
theorem loadIndexAssigns : Obligations.LoadIndexAssigns := fun nnn =>
  ⟨decodes_of_toNat_encode (toNat_wordNNN 0xA nnn), fun _ => ⟨_, rfl, toNat_zextAddr nnn, rfl⟩⟩

/-- Settles O43: a sum of words, which wraps at 65536; the registers, `VF` among them, are in the frame. -/
theorem addToIndexWrapsWithoutFlag : Obligations.AddToIndexWrapsWithoutFlag := fun x =>
  ⟨decodes_groupF 0x1E rfl, fun s => ⟨_, rfl, toNat_add_zextByte s.index (s.reg x), rfl⟩⟩

/-- Settles O44: the formula fits in a word for every byte, so `Vx` needs no mask. -/
theorem glyphAddressOfADigit : Obligations.GlyphAddressOfADigit := fun x =>
  ⟨decodes_groupF 0x29 rfl, fun s => ⟨_, rfl, toNat_glyphAddress (s.reg x), rfl⟩⟩

end Sys2Proof.Proofs
end

section
/-! SUPPORT. The display: the cells of a sprite as the pixels the statements speak of, the two range checks of `DRW`,
and the state a draw within range leaves (43_display.md R171 to R174). -/

namespace Sys2Proof.Machine

open Sys2Proof.Claims

/-! ### The sprite of `DRW` -/

theorem State.mem_drawCells_iff_covered {s : State} {x y : RegNum} {n : Nibble} {L : Nat} :
    L ∈ s.drawCells x y n ↔ Covered s x y n L :=
  s.mem_drawCells x y n L

/-- The first check of `DRW` is that the sprite reaches beyond memory; a sprite of no rows does not. -/
theorem spriteBeyondMemory_iff {s : State} {n : Nibble} :
    SpriteBeyondMemory s n ↔ n ≠ 0 ∧ beyondMemory (s.ea (n.toNat - 1)) = true := by
  rw [beyondMemory_eq_true]
  exact and_congr_left fun _ => Nat.pos_iff_ne_zero.trans (BitVec.toNat_ne_iff_ne (y := 0#4))

/-- The second check of `DRW` is that a set bit of the sprite falls beyond the framebuffer. -/
theorem State.any_drawCells_beyond_iff {s : State} {x y : RegNum} {n : Nibble} :
    ((s.drawCells x y n).any fun L => decide (L > 2047)) = true ↔ ∃ L, Covered s x y n L ∧ 2047 < L := by
  simp only [List.any_eq_true, decide_eq_true_eq, State.mem_drawCells_iff_covered, gt_iff_lt]

/-! ### The three outcomes of `DRW` -/

/-- The state `DRW Vx, Vy, n` leaves when both checks pass: `video` after the drawing loop, then the collision flag. -/
def State.drawn (s : State) (x y : RegNum) (n : Nibble) : State :=
  State.setReg { s with video := (plotAll s.video (s.drawCells x y n)).1 } 15
    (collisionFlag (plotAll s.video (s.drawCells x y n)).2)

theorem exec_drw_of_beyondMemory {s : State} {n : Nibble} (x y : RegNum) (hmem : SpriteBeyondMemory s n) :
    exec (.drw x y n) s = .next (raise .memRange s) :=
  if_pos (spriteBeyondMemory_iff.1 hmem)

theorem exec_drw_of_beyondVideo {s : State} {x y : RegNum} {n : Nibble} (hmem : ¬SpriteBeyondMemory s n)
    (hvideo : ∃ L, Covered s x y n L ∧ 2047 < L) : exec (.drw x y n) s = .next (raise .videoRange s) :=
  (if_neg (mt spriteBeyondMemory_iff.2 hmem)).trans (if_pos (State.any_drawCells_beyond_iff.2 hvideo))

theorem exec_drw_of_within {s : State} {x y : RegNum} {n : Nibble} (hmem : ¬SpriteBeyondMemory s n)
    (hvideo : ∀ L, Covered s x y n L → L ≤ 2047) : exec (.drw x y n) s = .next (s.drawn x y n) := by
  refine (if_neg (mt spriteBeyondMemory_iff.2 hmem)).trans (if_neg fun hbeyond => ?_)
  obtain ⟨L, hcov, hL⟩ := State.any_drawCells_beyond_iff.1 hbeyond
  exact Nat.not_lt.2 (hvideo L hcov) hL

/-! ### The state after a draw -/

theorem State.drawn_frame (s : State) (x y : RegNum) (n : Nibble) :
    { s.drawn x y n with video := s.video, v := s.v } = s := rfl

theorem State.reg_drawn_of_ne (s : State) (x y : RegNum) (n : Nibble) {z : RegNum} (hz : z ≠ 15) :
    (s.drawn x y n).reg z = s.reg z :=
  State.reg_setReg_of_ne _ _ hz

section
variable {s : State} {x y : RegNum} {n : Nibble} (hvideo : ∀ L, Covered s x y n L → L ≤ 2047)
include hvideo

/-- The drawing loop on the cells of `DRW`, which are in range and of which no two are the same. -/
theorem State.plotAll_drawCells :
    (∀ L, (plotAll s.video (s.drawCells x y n)).1.pixel L = (s.video.pixel L ^^ decide (L ∈ s.drawCells x y n))) ∧
    (plotAll s.video (s.drawCells x y n)).2 = (s.drawCells x y n).any s.video.pixel :=
  plotAll_spec s.video (fun L hL => hvideo L (State.mem_drawCells_iff_covered.1 hL)) (s.drawCells_nodup x y n)

theorem State.pixel_drawn_of_covered {L : Nat} (hcov : Covered s x y n L) :
    (s.drawn x y n).video.pixel L = !s.video.pixel L := by
  have hpixel := (State.plotAll_drawCells hvideo).1 L
  rwa [decide_eq_true (State.mem_drawCells_iff_covered.2 hcov), Bool.xor_true] at hpixel

theorem State.pixel_drawn_of_not_covered {L : Nat} (hcov : ¬Covered s x y n L) :
    (s.drawn x y n).video.pixel L = s.video.pixel L := by
  have hpixel := (State.plotAll_drawCells hvideo).1 L
  rwa [decide_eq_false (mt State.mem_drawCells_iff_covered.1 hcov), Bool.xor_false] at hpixel

/-- `VF` after a draw is the flag of "a pixel under a set bit was on before" (R174 (c)). -/
theorem State.reg_drawn_flag :
    (s.drawn x y n).reg 15 = flagOf ((s.drawCells x y n).any s.video.pixel) := by
  rw [State.drawn, State.reg_setReg_same, collisionFlag, (State.plotAll_drawCells hvideo).2]

theorem State.reg_drawn_flag_of_collision (hon : ∃ L, Covered s x y n L ∧ s.video.pixel L = true) :
    (s.drawn x y n).reg 15 = 1 := by
  obtain ⟨L, hcov, hL⟩ := hon
  rw [State.reg_drawn_flag hvideo, List.any_eq_true.2 ⟨L, State.mem_drawCells_iff_covered.2 hcov, hL⟩]
  rfl

theorem State.reg_drawn_flag_of_no_collision (hoff : ∀ L, Covered s x y n L → s.video.pixel L = false) :
    (s.drawn x y n).reg 15 = 0 := by
  have hnone : (s.drawCells x y n).any s.video.pixel = false :=
    List.any_eq_false.2 fun L hL => Bool.eq_false_iff.1 (hoff L (State.mem_drawCells_iff_covered.1 hL))
  rw [State.reg_drawn_flag hvideo, hnone]
  rfl

end

end Sys2Proof.Machine
end

section
/-! Display: the statements about the framebuffer instructions (43_display.md). -/

namespace Sys2Proof.Proofs

open Sys2Proof.Machine

/-- Settles O52: the two faults in their order, and the draw when neither is taken. -/
theorem drawFlipsThePixelsUnderTheSprite : Obligations.DrawFlipsThePixelsUnderTheSprite := by
  refine fun x y n => ⟨decodes_of_toNat_encode ?word, fun s =>
    ⟨exec_drw_of_beyondMemory x y, exec_drw_of_beyondVideo, fun hmem hvideo => ?draw⟩⟩
  case word => exact toNat_wordXYN 0xD (regField x) (regField y) n
  case draw =>
    exact ⟨s.drawn x y n, exec_drw_of_within hmem hvideo,
      fun _ _ => State.pixel_drawn_of_covered hvideo, fun _ _ => State.pixel_drawn_of_not_covered hvideo,
      State.reg_drawn_flag_of_collision hvideo, State.reg_drawn_flag_of_no_collision hvideo,
      fun _ => s.reg_drawn_of_ne x y n, s.drawn_frame x y n⟩

/-- Settles O51: a framebuffer of zero rows has every pixel off, and `CLS` writes `video` alone. -/
theorem clearTurnsEveryPixelOff : Obligations.ClearTurnsEveryPixelOff :=
  ⟨decodes_of_toNat_encode (toNat_wordXKK 0x0 0 0xE0), fun _ _ => ⟨_, rfl, fun L _ => Video.pixel_clear L, rfl⟩⟩

end Sys2Proof.Proofs
end

section
/-! SUPPORT. Keypad and timers: words of a key, a register and a low byte, the timers at the end of a cycle without a
fault, and what the keypad instructions do in each of their conditions (44_keypad_timers.md R180 to R185). -/

namespace Sys2Proof

open Sys2Proof.Machine Sys2Proof.Claims

/-- The number of a word of format `XKK` or `XS` decodes to the instruction whose word it is (R72). -/
theorem decodes_wordXKK (op : Nibble) (kk : Byte) {x : RegNum} {i : Instr}
    (h : encode i = wordXKK op (regField x) kk) :
    Decodes (0x1000 * op.toNat + kk.toNat + 0x100 * x.val) i := by
  refine decodes_of_toNat_encode ?_
  rw [h, toNat_wordXKK, toNat_regField]
  omega

end Sys2Proof

namespace Sys2Proof.Machine

open Sys2Proof.Claims

/-! ### The timers at the end of a cycle -/

theorem State.toNat_endCycle_delayTimer {t : State} (h : t.fault = 0) :
    t.endCycle.delayTimer.toNat = t.delayTimer.toNat - 1 := by
  rw [State.endCycle_of_noFault h, State.tick_delayTimer, toNat_tickTimer]

theorem State.toNat_endCycle_soundTimer {t : State} (h : t.fault = 0) :
    t.endCycle.soundTimer.toNat = t.soundTimer.toNat - 1 := by
  rw [State.endCycle_of_noFault h, State.tick_soundTimer, toNat_tickTimer]

/-- The end of a cycle writes no register, so the value of a timer read in the cycle stays as it was read (R182). -/
theorem State.reg_endCycle (t : State) (z : RegNum) : t.endCycle.reg z = t.reg z :=
  State.reg_congr t.endCycle_v z

/-! ### Skips on a key -/

theorem exec_skp_of_beyond {x : RegNum} {s : State} (h : 15 < (s.reg x).toNat) :
    exec (.skp x) s = .next (raise .keyRange s) :=
  if_pos h

theorem exec_sknp_of_beyond {x : RegNum} {s : State} (h : 15 < (s.reg x).toNat) :
    exec (.sknp x) s = .next (raise .keyRange s) :=
  if_pos h

theorem exec_skp_of_key {x : RegNum} {s : State} (h : (s.reg x).toNat ≤ 15) :
    exec (.skp x) s = .next (State.skipIf (s.keyDown (s.reg x).toNat) s) :=
  if_neg (Nat.not_lt.2 h)

theorem exec_sknp_of_key {x : RegNum} {s : State} (h : (s.reg x).toNat ≤ 15) :
    exec (.sknp x) s = .next (State.skipIf (!s.keyDown (s.reg x).toNat) s) :=
  if_neg (Nat.not_lt.2 h)

theorem State.skipIf_not_pc_toNat (c : Bool) (s : State) :
    (State.skipIf (!c) s).pc.toNat = if c then s.pc.toNat else (s.pc.toNat + 2) % 65536 := by
  rw [State.skipIf_pc_toNat]
  cases c <;> rfl

/-! ### The key wait -/

/-- Two back from a word, as a difference in the integers, reduced (10_state.md R23). -/
theorem toNat_sub_two_eq_emod (a : Word) : ((a - 2).toNat : Int) = ((a.toNat : Int) - 2) % 65536 := by
  have htwo : (2 : Word).toNat = 2 := rfl
  rw [BitVec.toNat_sub, htwo]
  omega

/-- With no key pressed the wait goes back to its own word and writes `pc` alone. -/
theorem exec_ldVxK_of_noKey (x : RegNum) {s : State} (hkeys : s.keys = 0) :
    exec (.ldVxK x) s = .next (State.jump (s.pc - 2) s) := by
  show execLdVxK x s = _
  rw [execLdVxK, State.waitKey, s.lowestKey_eq_none.2 hkeys]
  rfl

/-- A pressed key below which none is pressed is the one the wait takes. -/
theorem exec_ldVxK_of_leastKey (x : RegNum) {s : State} {k : Fin 16} (hdown : s.keys.getLsbD k.val = true)
    (hleast : ∀ j : Fin 16, j < k → s.keys.getLsbD j.val = false) :
    exec (.ldVxK x) s = .next (s.setReg x (byteOfNat k.val)) := by
  have hkey : s.lowestKey = some k.val :=
    (s.lowestKey_eq_some k.val).2 ⟨k.isLt, hdown, fun j hj => hleast ⟨j, hj.trans k.isLt⟩ hj⟩
  show execLdVxK x s = _
  rw [execLdVxK, State.waitKey, hkey]

end Sys2Proof.Machine
end

section
/-! Keypad and timers: the statements about the instructions of 44_keypad_timers.md. -/

namespace Sys2Proof.Proofs

open Sys2Proof.Machine

/-- Settles O56: `exec_ldVxK_of_noKey` and `exec_ldVxK_of_leastKey` are the two conditions of the keypad, and the tick
follows the jump back as it follows any instruction without a fault. -/
theorem keyWaitTakesTheLeastKey : Obligations.KeyWaitTakesTheLeastKey := by
  refine fun x => ⟨decodes_groupF 0x0A rfl, fun s => ⟨fun hkeys => ?wait, fun k hdown hleast => ?taken⟩⟩
  case wait =>
    exact ⟨_, exec_ldVxK_of_noKey x hkeys, State.jump_pcOnly _ s, toNat_sub_two_eq_emod s.pc,
      fun hfault => ⟨State.toNat_endCycle_delayTimer hfault, State.toNat_endCycle_soundTimer hfault⟩⟩
  case taken =>
    refine ⟨_, exec_ldVxK_of_leastKey x hdown hleast, s.setReg_onlyRegs x _, ?_, fun z hz => s.reg_setReg_of_ne _ hz⟩
    rw [State.reg_setReg_same, toNat_byteOfNat_of_lt (k.isLt.trans (by decide))]

/-- Settles O54: the range check of the key number, then a skip on the key or on its negation. -/
theorem skipsOnAKey : Obligations.SkipsOnAKey := fun _ =>
  ⟨decodes_wordXKK 0xE 0x9E rfl, decodes_wordXKK 0xE 0xA1 rfl, fun s =>
    ⟨fun hbeyond => ⟨exec_skp_of_beyond hbeyond, exec_sknp_of_beyond hbeyond⟩, fun hkey =>
      ⟨⟨_, exec_skp_of_key hkey, State.skipIf_pcOnly _ s, State.skipIf_pc_toNat _ s⟩,
        ⟨_, exec_sknp_of_key hkey, State.skipIf_pcOnly _ s, State.skipIf_not_pc_toNat _ s⟩⟩⟩⟩

/-- Settles O55: a register write of the delay timer, after which the tick lowers the timer and no register. -/
theorem delayTimerIsRead : Obligations.DelayTimerIsRead := fun x =>
  ⟨decodes_groupF 0x07 rfl, fun s =>
    ⟨_, rfl, s.setReg_onlyRegs x _, fun z => s.reg_setReg x z s.delayTimer, fun hfault =>
      ⟨(State.reg_endCycle _ x).trans (s.reg_setReg_same x s.delayTimer), State.toNat_endCycle_delayTimer hfault⟩⟩⟩

/-- Settles O57: the timer written is the one the tick of the same cycle lowers, since the write takes no fault. -/
theorem timersAreWritten : Obligations.TimersAreWritten := fun x =>
  ⟨decodes_groupF 0x15 rfl, decodes_groupF 0x18 rfl, fun s =>
    ⟨⟨{ s with delayTimer := s.reg x }, rfl, rfl, rfl, fun hfault => State.toNat_endCycle_delayTimer hfault⟩,
      ⟨{ s with soundTimer := s.reg x }, rfl, rfl, rfl, fun hfault => State.toNat_endCycle_soundTimer hfault⟩⟩⟩

end Sys2Proof.Proofs
end

section
/-! SUPPORT. The state of a cycle in the words of the statements, a state whose fault register is set, and what the
instruction of a cycle makes of each timer (60_exceptions.md R204 to R207, R221). -/

namespace Sys2Proof.Machine

open Sys2Proof.Claims

/-! ### The cycle in the words of the statements -/

/-- The tick of R200 step 5 is the machine's. -/
theorem ticked_eq_tick (t : State) : Ticked t = t.tick := by
  simp only [Ticked, State.tick, tickTimer_eq]

/-- A fetched word that selects no instruction is reported, and the timers tick (R204). -/
theorem execFetched_of_unknown {s : State} {w : Word} (hw : s.opcode = w) (h : ∀ i, decode w ≠ .ok i) :
    execFetched s = .next (State.tick { s with report := some w }) := by
  subst hw
  unfold execFetched
  split
  case h_1 i hi => exact absurd hi (h i)
  case h_2 => rfl

/-! ### A fault taken, and a fault taken before -/

/-- A faulted core honours no request, so every run stands still (R207). -/
theorem run_of_fault {s : State} (h : s.fault ≠ 0) (k : Nat) : core.run k s = .next s :=
  run_of_step_self (M := core) (step_of_not_honoured fun hh => h hh.2) k

/-- Every fault but that of the fetch has a code from 2 to 6 (R205). -/
theorem FaultCause.code_range_of_instr {c : FaultCause} (h : c ≠ .fetchRange) :
    2 ≤ c.code.toNat ∧ c.code.toNat ≤ 6 := by
  cases c with
  | fetchRange => exact absurd rfl h
  | _ => decide

/-- A fault of the fetch on sampled inputs writes the run state, and beside it the model's own fields alone (R206,
assumption log 1 to 3). -/
theorem raise_sampleInputs_frame (c : FaultCause) {s : State} (hrun : s.running = true) (hfault : s.fault = 0) :
    { raise c s.sampleInputs with
      fault := 0, running := true, keys := s.keys, rnd := s.rnd, cycle := s.cycle, report := s.report,
      started := s.started } = s := by
  rw [← hrun, ← hfault]
  rfl

/-- An instruction that leads to a fault took it itself, and did nothing else (R206). -/
theorem exec_raised {i : Instr} {s t : State} (hfault : s.fault = 0) (h : exec i s = .next t) (ht : t.fault ≠ 0) :
    ∃ c, c ≠ FaultCause.fetchRange ∧ t = raise c s := by
  obtain hraised | hkeep := exec_faultsOrKeeps h
  · exact hraised
  · exact absurd (hkeep.fault.trans hfault) ht

/-- An instruction that leads to no fault leaves the core running as it was (10_state.md R32). -/
theorem exec_running {i : Instr} {s t : State} (h : exec i s = .next t) (ht : t.fault = 0) :
    t.running = s.running := by
  obtain ⟨c, -, rfl⟩ | hkeep := exec_faultsOrKeeps h
  · exact absurd ht c.code_ne_zero
  · exact hkeep.running

/-- A cycle that takes no fault leaves the core running (R206: only a fault clears `running` in a cycle). -/
theorem step_running {s t : State} (hrun : s.running = true) (hfault : s.fault = 0) (h : step s = .next t)
    (ht : t.fault = 0) : t.running = true := by
  obtain ⟨-, rfl⟩ | ⟨-, i, u, -, hexec, rfl⟩ | ⟨-, -, rfl⟩ := step_cases hrun hfault h
  · exact absurd ht FaultCause.fetchRange.code_ne_zero
  · rw [State.endCycle_fault] at ht
    rw [State.endCycle_running, exec_running hexec ht]
    exact hrun
  · exact hrun

/-! ### The timers an instruction leaves -/

/-- The delay timer after step 4 of a cycle whose word decoded to `d`: the register written, or the timer as before
(44_keypad_timers.md R184). -/
def delayWritten (d : Except DecodeError Instr) (s : State) : Byte :=
  match d with
  | .ok (.ldDtVx x) => s.reg x
  | _ => s.delayTimer

/-- The sound timer after step 4 of a cycle whose word decoded to `d` (R185). -/
def soundWritten (d : Except DecodeError Instr) (s : State) : Byte :=
  match d with
  | .ok (.ldStVx x) => s.reg x
  | _ => s.soundTimer

theorem delayWritten_of_ne {d : Except DecodeError Instr} (h : ∀ x, d ≠ .ok (.ldDtVx x)) (s : State) :
    delayWritten d s = s.delayTimer := by
  unfold delayWritten
  split
  case h_1 x => exact absurd rfl (h x)
  case h_2 => rfl

theorem soundWritten_of_ne {d : Except DecodeError Instr} (h : ∀ x, d ≠ .ok (.ldStVx x)) (s : State) :
    soundWritten d s = s.soundTimer := by
  unfold soundWritten
  split
  case h_1 x => exact absurd rfl (h x)
  case h_2 => rfl

/-- `t` has the timers step 4 leaves, on a word that decoded to `d`. -/
def TimersWritten (d : Except DecodeError Instr) (s t : State) : Prop :=
  t.delayTimer = delayWritten d s ∧ t.soundTimer = soundWritten d s

/-- A property of the next state of a meaning that starts with the check of a fault: it holds of the fault, and of what
follows the check. -/
theorem next_of_check {P : State → Prop} {s t : State} {p : Prop} [Decidable p] {c : FaultCause}
    {o : Host.Outcome State Fault Refusal} (h : (if p then .next (raise c s) else o) = .next t)
    (hraise : P (raise c s)) (ho : o = .next t → P t) : P t := by
  split at h
  · cases h
    exact hraise
  · exact ho h

theorem State.waitKey_timers (x : RegNum) (s : State) :
    (State.waitKey x s).delayTimer = s.delayTimer ∧ (State.waitKey x s).soundTimer = s.soundTimer := by
  unfold State.waitKey
  split <;> exact ⟨rfl, rfl⟩

/-- `LD DT` and `LD ST` write their timer, and every other instruction leaves both, a faulting one among them
(10_state.md R28). -/
theorem exec_timers {i : Instr} {s t : State} (h : exec i s = .next t) : TimersWritten (.ok i) s t := by
  cases i with
  | ret _ | call _ =>
    refine next_of_check (P := TimersWritten _ s) h ⟨rfl, rfl⟩ fun h => ?_
    split at h
    · cases h; exact ⟨rfl, rfl⟩
    · cases h
  | drw _ _ _ =>
    exact next_of_check (P := TimersWritten _ s) h ⟨rfl, rfl⟩ fun h =>
      next_of_check (P := TimersWritten _ s) h ⟨rfl, rfl⟩ fun h => by cases h; exact ⟨rfl, rfl⟩
  | skp _ | sknp _ | ldBcd _ | storeRegs _ | loadRegs _ =>
    exact next_of_check (P := TimersWritten _ s) h ⟨rfl, rfl⟩ fun h => by cases h; exact ⟨rfl, rfl⟩
  | ldVxK x => cases h; exact State.waitKey_timers x s
  | _ => cases h; exact ⟨rfl, rfl⟩

/-! ### The timers over cycles -/

/-- A cycle that takes no fault ends with the tick of the timers step 4 left (R200, R221). -/
theorem step_timers {s t : State} (hrun : s.running = true) (hfault : s.fault = 0) (h : step s = .next t)
    (ht : t.fault = 0) :
    t.delayTimer.toNat = (delayWritten (decode s.fetchWord) s).toNat - 1 ∧
    t.soundTimer.toNat = (soundWritten (decode s.fetchWord) s).toNat - 1 := by
  obtain ⟨-, rfl⟩ | ⟨-, i, u, hdec, hexec, rfl⟩ | ⟨-, hunknown, rfl⟩ := step_cases hrun hfault h
  · exact absurd ht FaultCause.fetchRange.code_ne_zero
  · rw [State.endCycle_fault] at ht
    obtain ⟨hdelay, hsound⟩ := exec_timers hexec
    rw [State.toNat_endCycle_delayTimer ht, State.toNat_endCycle_soundTimer ht, hdelay, hsound, hdec]
    exact ⟨rfl, rfl⟩
  · rw [delayWritten_of_ne fun x => hunknown _, soundWritten_of_ne fun x => hunknown _]
    exact ⟨toNat_tickTimer _, toNat_tickTimer _⟩

/-- A run of `k + 1` steps is a first step and a run of `k`. -/
theorem run_succ_next {M : Host.Core} {k : Nat} {s t : M.State} (h : M.run (k + 1) s = .next t) :
    ∃ u, M.step s = .next u ∧ M.run k u = .next t := by
  rw [Host.Core.run] at h
  split at h
  case h_1 u hu => exact ⟨u, hu, h⟩
  all_goals cases h

theorem run_succ_of_step {M : Host.Core} {s u : M.State} (h : M.step s = .next u) (k : Nat) :
    M.run (k + 1) s = M.run k u := by
  rw [Host.Core.run, h]

/-- If every cycle without a fault from a `Quiet` state lowers a timer by 1, then `k` such cycles lower it by `k`;
neither goes below 0 (R221). -/
theorem run_lowers {timer : State → Nat} {Quiet : State → Prop}
    (hstep : ∀ {s u : State}, s.running = true → s.fault = 0 → step s = .next u → u.fault = 0 → Quiet s →
      timer u = timer s - 1)
    {k : Nat} {s t : State} (hrun : s.running = true) (hfault : s.fault = 0) (h : core.run k s = .next t)
    (ht : t.fault = 0) (hquiet : ∀ j < k, ∀ u, core.run j s = .next u → Quiet u) : timer t = timer s - k := by
  induction k generalizing s with
  | zero =>
    cases h
    rfl
  | succ k ih =>
    obtain ⟨u, hu, hrest⟩ := run_succ_next (M := core) h
    have hufault : u.fault = 0 := by
      by_contra hne
      rw [run_of_fault hne] at hrest
      cases hrest
      exact hne ht
    have hlow : timer u = timer s - 1 := hstep hrun hfault hu hufault (hquiet 0 (by omega) s rfl)
    have hrec : timer t = timer u - k :=
      ih (step_running hrun hfault hu hufault) hufault hrest fun j hj v hv =>
        hquiet (j + 1) (by omega) v ((run_succ_of_step (M := core) hu j).trans hv)
    omega

end Sys2Proof.Machine
end

section
/-! Exceptions and timers: the statements about the cycle, its faults and its ticks (60_exceptions.md). -/

namespace Sys2Proof.Proofs

open Sys2Proof.Machine

/-- Settles O7: `step_timers` over one cycle, and over `k` cycles `run_lowers` for each timer apart. -/
theorem timersTickOncePerCycle : Obligations.TimersTickOncePerCycle := by
  refine ⟨fun s t hrun hfault h ht => ?cycle, fun k s t hrun hfault h ht =>
    ⟨fun hquiet => ?delay, fun hquiet => ?sound⟩⟩
  case cycle =>
    obtain ⟨hdelay, hsound⟩ := step_timers hrun hfault h ht
    refine ⟨fun x hd => ?_, fun hd => ?_, fun x hd => ?_, fun hd => ?_⟩
    · rwa [hd] at hdelay
    · rwa [delayWritten_of_ne hd] at hdelay
    · rwa [hd] at hsound
    · rwa [soundWritten_of_ne hd] at hsound
  case delay =>
    refine run_lowers (timer := fun s => s.delayTimer.toNat)
      (Quiet := fun s => ∀ x, decode s.fetchWord ≠ .ok (.ldDtVx x)) (fun hrun hfault h ht hd => ?_) hrun hfault h ht
      fun j hj u hu x => hquiet j hj u x hu
    rw [(step_timers hrun hfault h ht).1, delayWritten_of_ne hd]
  case sound =>
    refine run_lowers (timer := fun s => s.soundTimer.toNat)
      (Quiet := fun s => ∀ x, decode s.fetchWord ≠ .ok (.ldStVx x)) (fun hrun hfault h ht hd => ?_) hrun hfault h ht
      fun j hj u hu x => hquiet j hj u x hu
    rw [(step_timers hrun hfault h ht).2, soundWritten_of_ne hd]

/-- Settles O2: the cycle of a word that selects no instruction, in the words of the statement. -/
theorem unknownOpcodeIsAReportedNoOp : Obligations.UnknownOpcodeIsAReportedNoOp := by
  intro s hrun hfault hpc hunknown
  rw [step_of_fetch hrun hfault hpc, execFetched_of_unknown (w := s.fetchWord) rfl hunknown, ticked_eq_tick]
  rfl

/-- Settles O6: `run_of_fault` for the step requests, and what each host request writes. -/
theorem faultedCoreNeverChanges : Obligations.FaultedCoreNeverChanges := by
  refine fun s hfault => ⟨run_of_fault hfault, rfl, fun hstopped => ?stop, fun _ => rfl, fun image t h => ?load, rfl⟩
  case stop =>
    rw [hostStop, ← hstopped]
  case load =>
    obtain ⟨-, rfl⟩ := hostLoad_next h
    rfl

/-- Settles O19: of the three ends of a cycle the fetch out of range and an instruction's own fault are the faults. -/
theorem faultsArePrecise : Obligations.FaultsArePrecise := by
  intro s t hrun hfault h ht
  obtain ⟨hpc, rfl⟩ | ⟨hpc, i, u, -, hexec, rfl⟩ | ⟨-, -, rfl⟩ := step_cases hrun hfault h
  · exact ⟨.inl ⟨hpc, rfl, raise_sampleInputs_frame .fetchRange hrun hfault⟩, rfl, run_of_fault ht⟩
  · rw [State.endCycle_fault] at ht
    rw [State.endCycle_of_fault ht]
    obtain ⟨c, hc, rfl⟩ := exec_raised (s := s.sampleInputs.fetched) hfault hexec ht
    obtain ⟨hlow, hhigh⟩ := FaultCause.code_range_of_instr hc
    exact ⟨.inr ⟨hpc, hlow, hhigh, rfl⟩, rfl, run_of_fault ht⟩
  · exact absurd hfault ht

end Sys2Proof.Proofs
end

section
/-! SUPPORT. Everything an instruction can do, said once: the condition each of its faults is taken under and the one
update each meaning makes, so that a rule about all instructions is a short case analysis (10_state.md R22 to R34,
60_exceptions.md R205). -/

namespace Sys2Proof.Machine

open Sys2Proof.Claims

/-! ### The stack pointer beyond the stack -/

/-- `RET` with more than 16 addresses stacked names no entry of the stack, and the model stops (assumption log 5). -/
theorem exec_ret_of_illegal (m : Nibble) {s : State} (hsp : 16 < s.sp.toNat) :
    exec (.ret m) s = .fault .stackPointerIllegal := by
  have hne : s.sp ≠ 0 := fun h => by simp [h] at hsp
  have htop : s.stackEntry (s.sp.toNat - 1) = none := by
    rw [State.stackEntry_eq, dif_neg (by omega)]
  show execRet s = _
  rw [execRet, if_neg hne, htop]

theorem exec_call_of_illegal (nnn : Addr12) {s : State} (hsp : 16 < s.sp.toNat) :
    exec (.call nnn) s = .fault .stackPointerIllegal := by
  have hne : s.sp ≠ 16 := fun h => by simp [h] at hsp
  show execCall nnn s = _
  rw [execCall, if_neg hne, if_neg (by omega)]

/-- The conditions of the stack `RET` tells apart: empty, an entry to pop, or beyond the stack (10_state.md R27, R35). -/
theorem sp_cases_ret (s : State) : s.sp = 0 ∨ (∃ k : Fin 16, s.sp.toNat = k.val + 1) ∨ 16 < s.sp.toNat := by
  rcases Nat.eq_zero_or_pos s.sp.toNat with hzero | hpos
  · exact .inl (BitVec.eq_of_toNat_eq hzero)
  · rcases Nat.lt_or_ge 16 s.sp.toNat with hbeyond | hle
    · exact .inr (.inr hbeyond)
    · exact .inr (.inl ⟨⟨s.sp.toNat - 1, by omega⟩, (Nat.sub_add_cancel hpos).symm⟩)

/-- The conditions of the stack `CALL` tells apart: room for an address, full, or beyond the stack (R27, R35). -/
theorem sp_cases_call (s : State) : s.sp.toNat < 16 ∨ s.sp = 16 ∨ 16 < s.sp.toNat := by
  rcases Nat.lt_trichotomy s.sp.toNat 16 with hroom | hfull | hbeyond
  · exact .inl hroom
  · exact .inr (.inl (BitVec.eq_of_toNat_eq hfull))
  · exact .inr (.inr hbeyond)

/-! ### What an instruction can do -/

/-- The table of R205: the instruction takes the fault of this cause in this state. -/
inductive FaultsWhen (s : State) : Instr → FaultCause → Prop
  | spriteMemory {x y n} (h : SpriteBeyondMemory s n) : FaultsWhen s (.drw x y n) .memRange
  | digits {x} (h : 0xFFF < s.ea 2) : FaultsWhen s (.ldBcd x) .memRange
  | store {x} (h : 0xFFF < s.ea x.val) : FaultsWhen s (.storeRegs x) .memRange
  | load {x} (h : 0xFFF < s.ea x.val) : FaultsWhen s (.loadRegs x) .memRange
  | call {nnn} (h : s.sp = 16) : FaultsWhen s (.call nnn) .stackOverflow
  | ret {m} (h : s.sp = 0) : FaultsWhen s (.ret m) .stackUnderflow
  | skp {x} (h : 15 < (s.reg x).toNat) : FaultsWhen s (.skp x) .keyRange
  | sknp {x} (h : 15 < (s.reg x).toNat) : FaultsWhen s (.sknp x) .keyRange
  | spriteVideo {x y n} (h : ∃ L, Covered s x y n L ∧ 2047 < L) : FaultsWhen s (.drw x y n) .videoRange

/-- The instruction writes its destination `Vx` and no flag. -/
def AssignsReg (x : RegNum) (i : Instr) : Prop :=
  (∃ kk, i = .ldImm x kk ∨ i = .addImm x kk ∨ i = .rnd x kk) ∨
  (∃ y, i = .ldReg x y ∨ i = .orReg x y ∨ i = .andReg x y ∨ i = .xorReg x y) ∨ i = .ldVxDt x ∨ i = .ldVxK x

/-- The instruction writes a result and then the flag (10_state.md R22); `DRW` writes the flag alone. -/
def AssignsRegAndFlag (i : Instr) : Prop :=
  ∃ x y, i = .addReg x y ∨ i = .subReg x y ∨ i = .shr x y ∨ i = .subnReg x y ∨ i = .shl x y

/-- The instruction writes the index register (R25). -/
def AssignsIndex (i : Instr) : Prop := (∃ nnn, i = .ldI nnn) ∨ ∃ x, i = .addI x ∨ i = .ldGlyph x

/-- The instruction is a skip (40_flow.md R104 to R107, 44_keypad_timers.md R180, R181). -/
def Skips (i : Instr) : Prop :=
  (∃ x kk, i = .seImm x kk ∨ i = .sneImm x kk) ∨ (∃ x y n, i = .seReg x y n ∨ i = .sneReg x y n) ∨
    ∃ x, i = .skp x ∨ i = .sknp x

/-- `Effect s i t`: the instruction `i`, run on `s`, may lead to `t`. -/
inductive Effect (s : State) : Instr → State → Prop
  | raised {i c} (h : FaultsWhen s i c) : Effect s i (raise c s)
  | setReg {i x} (b : Byte) (h : AssignsReg x i) : Effect s i (s.setReg x b)
  | setRegThenFlag {i} (x : RegNum) (r f : Byte) (h : AssignsRegAndFlag i) : Effect s i (s.setRegThenFlag x r f)
  | setIndex {i} (a : Word) (h : AssignsIndex i) : Effect s i { s with index := a }
  | skip {i} (c : Bool) (h : Skips i) : Effect s i (State.skipIf c s)
  | cls {m} : Effect s (.cls m) { s with video := Vector.replicate 32 0 }
  | ret {m} (k : Fin 16) (h : s.sp.toNat = k.val + 1) :
      Effect s (.ret m) (State.jump s.stack[k] { s with sp := s.sp - 1 })
  | jp {nnn} : Effect s (.jp nnn) (State.jump (zextAddr nnn) s)
  | call {nnn} (h : s.sp.toNat < 16) : Effect s (.call nnn) (State.jump (zextAddr nnn) (State.push s.pc s))
  | jpV0 {nnn} : Effect s (.jpV0 nnn) (State.jump (zextAddr nnn + zextByte (s.reg 0)) s)
  | drw {x y n} (hmem : ¬SpriteBeyondMemory s n) (hvideo : ∀ L, Covered s x y n L → L ≤ 2047) :
      Effect s (.drw x y n) (s.drawn x y n)
  | keyWait {x} (h : s.keys = 0) : Effect s (.ldVxK x) (State.jump (s.pc - 2) s)
  | ldDtVx {x} : Effect s (.ldDtVx x) { s with delayTimer := s.reg x }
  | ldStVx {x} : Effect s (.ldStVx x) { s with soundTimer := s.reg x }
  | ldBcd {x} : Effect s (.ldBcd x) (s.storeAtIndex (bcdDigits (s.reg x)))
  | storeRegs {x} : Effect s (.storeRegs x) (s.storeAtIndex (s.regsUpTo x))
  | loadRegs {x} : Effect s (.loadRegs x) (s.loadAtIndex x)

/-- A meaning that starts with the check of a fault: the fault, or what follows the check. -/
theorem Effect.of_check {i : Instr} {s t : State} {p : Prop} [Decidable p] {c : FaultCause}
    {o : Host.Outcome State Fault Refusal} (h : (if p then .next (raise c s) else o) = .next t)
    (hp : p → FaultsWhen s i c) (ho : o = .next t → Effect s i t) : Effect s i t := by
  split at h
  case isTrue hfails =>
    cases h
    exact .raised (hp hfails)
  case isFalse => exact ho h

theorem effect_of_ret {m : Nibble} {s t : State} (h : exec (.ret m) s = .next t) : Effect s (.ret m) t := by
  obtain hempty | ⟨k, hk⟩ | hbeyond := sp_cases_ret s
  · rw [exec_ret_of_empty m hempty] at h
    cases h
    exact .raised (.ret hempty)
  · rw [exec_ret_of_stacked m hk] at h
    cases h
    exact .ret k hk
  · rw [exec_ret_of_illegal m hbeyond] at h
    cases h

theorem effect_of_call {nnn : Addr12} {s t : State} (h : exec (.call nnn) s = .next t) : Effect s (.call nnn) t := by
  obtain hroom | hfull | hbeyond := sp_cases_call s
  · rw [exec_call_of_room nnn hroom] at h
    cases h
    exact .call hroom
  · rw [exec_call_of_full nnn hfull] at h
    cases h
    exact .raised (.call hfull)
  · rw [exec_call_of_illegal nnn hbeyond] at h
    cases h

theorem effect_of_drw {x y : RegNum} {n : Nibble} {s t : State} (h : exec (.drw x y n) s = .next t) :
    Effect s (.drw x y n) t := by
  by_cases hmem : SpriteBeyondMemory s n
  · rw [exec_drw_of_beyondMemory x y hmem] at h
    cases h
    exact .raised (.spriteMemory hmem)
  · by_cases hvideo : ∃ L, Covered s x y n L ∧ 2047 < L
    · rw [exec_drw_of_beyondVideo hmem hvideo] at h
      cases h
      exact .raised (.spriteVideo hvideo)
    · have hwithin : ∀ L, Covered s x y n L → L ≤ 2047 := by simpa using hvideo
      rw [exec_drw_of_within hmem hwithin] at h
      cases h
      exact .drw hmem hwithin

theorem effect_of_ldVxK {x : RegNum} {s t : State} (h : exec (.ldVxK x) s = .next t) : Effect s (.ldVxK x) t := by
  change Host.Outcome.next (State.waitKey x s) = .next t at h
  cases h
  unfold State.waitKey
  split
  case h_1 hnone => exact .keyWait (s.lowestKey_eq_none.1 hnone)
  case h_2 k _ => exact .setReg _ (by simp [AssignsReg])

/-- Every next state an instruction answers is one of its effects. -/
theorem exec_effect {i : Instr} {s t : State} (h : exec i s = .next t) : Effect s i t := by
  cases i with
  | ret _ => exact effect_of_ret h
  | call _ => exact effect_of_call h
  | drw _ _ _ => exact effect_of_drw h
  | ldVxK _ => exact effect_of_ldVxK h
  | skp _ => exact .of_check (c := .keyRange) h .skp fun h => by cases h; exact .skip _ (by simp [Skips])
  | sknp _ => exact .of_check (c := .keyRange) h .sknp fun h => by cases h; exact .skip _ (by simp [Skips])
  | ldBcd x =>
    exact .of_check (c := .memRange) h (fun ha => .digits ((beyondMemory_eq_true _).1 ha)) fun h => by
      cases h; exact .ldBcd
  | storeRegs x =>
    exact .of_check (c := .memRange) h (fun ha => .store ((beyondMemory_eq_true _).1 ha)) fun h => by
      cases h; exact .storeRegs
  | loadRegs x =>
    exact .of_check (c := .memRange) h (fun ha => .load ((beyondMemory_eq_true _).1 ha)) fun h => by
      cases h; exact .loadRegs
  | cls _ => cases h; exact .cls
  | jp _ => cases h; exact .jp
  | jpV0 _ => cases h; exact .jpV0
  | ldDtVx _ => cases h; exact .ldDtVx
  | ldStVx _ => cases h; exact .ldStVx
  | ldI | addI | ldGlyph => cases h; exact .setIndex _ (by simp [AssignsIndex])
  | seImm | sneImm | seReg | sneReg => cases h; exact .skip _ (by simp [Skips])
  | ldImm | addImm | rnd | ldReg | orReg | andReg | xorReg | ldVxDt =>
    cases h; exact .setReg _ (by simp [AssignsReg])
  | addReg | subReg | shr | subnReg | shl => cases h; exact .setRegThenFlag _ _ _ (by simp [AssignsRegAndFlag])

end Sys2Proof.Machine
end

section
/-! SUPPORT. The invariant of reachable states over an instruction and over a cycle, and the inputs a cycle draws
(10_state.md R27, R39, R41, 60_exceptions.md R205, R206). -/

namespace Sys2Proof.Machine

open Sys2Proof.Claims

/-! ### The invariant -/

/-- A fault keeps the invariant from every state that meets it: its code is one of R205 and it stops the core. -/
theorem State.Inv.raise {s : State} (h : s.Inv) (c : FaultCause) : (raise c s).Inv := by
  obtain ⟨hwf, hsp, -, -⟩ := h
  exact ⟨hwf, hsp, c.code_range.2, fun _ => rfl⟩

theorem State.Inv.storeAtIndex {s : State} (h : s.Inv) (bs : List Byte) : (s.storeAtIndex bs).Inv := by
  obtain ⟨hwf, hrest⟩ := h
  exact ⟨Memory.wf_writeBytes bs _ hwf, hrest⟩

theorem State.Inv.endCycle {s : State} (h : s.Inv) : s.endCycle.Inv := by
  simpa only [State.Inv, State.endCycle_mem, State.endCycle_sp, State.endCycle_fault, State.endCycle_running] using h

/-- The invariant speaks of memory, `sp` and the run state: a fault, the stores, `CALL` and `RET` write one of these, and
every other effect none. -/
theorem Effect.inv {i : Instr} {s t : State} (heff : Effect s i t) (h : s.Inv) : t.Inv := by
  have ⟨hwf, hsp, hcode, hstopped⟩ := h
  cases heff with
  | raised _ => exact h.raise _
  | ldBcd | storeRegs => exact h.storeAtIndex _
  | call hroom => exact ⟨hwf, (State.push_sp_toNat hroom s.pc).trans_le hroom, hcode, hstopped⟩
  | ret k hk =>
    have hpop : (s.sp - 1).toNat ≤ 16 := by bv_omega
    exact ⟨hwf, hpop, hcode, hstopped⟩
  | _ => exact ⟨hwf, hsp, hcode, hstopped⟩

/-- A step keeps the invariant, honoured or not, in each of the ends a cycle has. -/
theorem step_inv {s t : State} (h : s.Inv) (hstep : step s = .next t) : t.Inv := by
  by_cases hrun : s.running = true ∧ s.fault = 0
  · have hsampled : s.sampleInputs.Inv := h
    have hfetched : s.sampleInputs.fetched.Inv := h
    obtain ⟨-, rfl⟩ | ⟨-, i, u, -, hexec, rfl⟩ | ⟨-, -, rfl⟩ := step_cases hrun.1 hrun.2 hstep
    · exact hsampled.raise .fetchRange
    · exact ((exec_effect hexec).inv hfetched).endCycle
    · exact hfetched
  · rw [step_of_not_honoured hrun] at hstep
    cases hstep
    exact h

/-! ### Answering a next state -/

/-- A meaning that starts with the check of a fault answers a next state if what follows the check does. -/
theorem exists_next_of_check {s : State} {p : Prop} [Decidable p] {c : FaultCause}
    {o : Host.Outcome State Fault Refusal} (ho : ∃ t, o = .next t) :
    ∃ t, (if p then .next (raise c s) else o) = .next t := by
  split
  · exact ⟨_, rfl⟩
  · exact ho

/-- `RET` and `CALL` alone can stop the model, and with at most 16 addresses stacked neither does (10_state.md R35). -/
theorem exists_exec_next {i : Instr} {s : State}
    (h : s.sp.toNat ≤ 16 ∨ (∀ nnn, i ≠ .call nnn) ∧ (∀ m, i ≠ .ret m)) : ∃ t, exec i s = .next t := by
  cases i with
  | ret m =>
    have hsp : s.sp.toNat ≤ 16 := h.resolve_right fun hne => hne.2 m rfl
    obtain hempty | ⟨k, hk⟩ | hbeyond := sp_cases_ret s
    · exact ⟨_, exec_ret_of_empty m hempty⟩
    · exact ⟨_, exec_ret_of_stacked m hk⟩
    · omega
  | call nnn =>
    have hsp : s.sp.toNat ≤ 16 := h.resolve_right fun hne => hne.1 nnn rfl
    obtain hroom | hfull | hbeyond := sp_cases_call s
    · exact ⟨_, exec_call_of_room nnn hroom⟩
    · exact ⟨_, exec_call_of_full nnn hfull⟩
    · omega
  | drw => exact exists_next_of_check (c := .memRange) (exists_next_of_check (c := .videoRange) ⟨_, rfl⟩)
  | skp | sknp => exact exists_next_of_check (c := .keyRange) ⟨_, rfl⟩
  | ldBcd | storeRegs | loadRegs => exact exists_next_of_check (c := .memRange) ⟨_, rfl⟩
  | _ => exact ⟨_, rfl⟩

/-- A cycle's end answers a next state whenever its instruction does. -/
theorem exists_execFetched_next {s : State} (h : s.sp.toNat ≤ 16) : ∃ t, execFetched s = .next t := by
  unfold execFetched
  split
  case h_1 i _ =>
    obtain ⟨t, ht⟩ := exists_exec_next (i := i) (.inl h)
    exact ⟨t.endCycle, congrArg afterInstr ht⟩
  case h_2 => exact ⟨_, rfl⟩

/-! ### The inputs of a cycle -/

/-- A performed cycle ends with the inputs sampled at its start and the counter one further: no instruction, fault or
report writes them (10_state.md R39, R41). -/
theorem step_inputs {s t : State} (hrun : s.running = true) (hfault : s.fault = 0) (h : step s = .next t) :
    t.keys = s.sampleInputs.keys ∧ t.rnd = s.sampleInputs.rnd ∧ t.cycle = s.sampleInputs.cycle := by
  obtain ⟨-, rfl⟩ | ⟨-, i, u, -, hexec, rfl⟩ | ⟨-, -, rfl⟩ := step_cases hrun hfault h
  · exact ⟨rfl, rfl, rfl⟩
  · rw [State.endCycle_keys, State.endCycle_rnd, State.endCycle_cycle]
    obtain ⟨c, -, rfl⟩ | hkeep := exec_faultsOrKeeps hexec
    · exact ⟨rfl, rfl, rfl⟩
    · exact ⟨hkeep.keys, hkeep.rnd, hkeep.cycle⟩
  · exact ⟨rfl, rfl, rfl⟩

/-! ### The decoded instruction of a cycle -/

/-- A fetched word that selects an instruction is that instruction, run on the state the fetch leaves (R200, R201). -/
theorem step_of_decoded {s : State} {i : Instr} (hrun : s.running = true) (hfault : s.fault = 0)
    (hpc : s.pc.toNat ≤ 0xFFE) (hdec : decode s.fetchWord = .ok i) :
    step s = afterInstr (exec i (AtInstruction s)) := by
  have hop : s.sampleInputs.fetched.opcode = s.fetchWord := rfl
  rw [step_of_fetch hrun hfault hpc, execFetched, hop, hdec]
  rfl

/-- The state after one cycle of a finished program, which jumps to its own address: beside the inputs and the cycle's
own records, `opcode` and the timers are written (70_reset_and_hazards.md R246). -/
def State.idleTurn (s : State) : State := State.tick { s.sampleInputs with opcode := s.fetchWord }

theorem step_of_finished {s : State} (hrun : s.running = true) (hfault : s.fault = 0) (hpc : s.pc.toNat ≤ 0xFFE)
    (hfin : s.finished) : step s = .next s.idleTurn := by
  obtain ⟨nnn, hdec, htarget⟩ := hfin
  have hexec : exec (.jp nnn) (AtInstruction s) = .next { s.sampleInputs with opcode := s.fetchWord } :=
    congrArg (fun a => Host.Outcome.next (State.jump a (AtInstruction s))) htarget
  rw [step_of_decoded hrun hfault hpc hdec, hexec]
  exact congrArg Host.Outcome.next (State.endCycle_of_noFault hfault)

theorem State.toNat_delayTimer_idleTurn (s : State) : s.idleTurn.delayTimer.toNat = s.delayTimer.toNat - 1 :=
  toNat_tickTimer _

theorem State.toNat_soundTimer_idleTurn (s : State) : s.idleTurn.soundTimer.toNat = s.soundTimer.toNat - 1 :=
  toNat_tickTimer _

/-- The turn writes neither `pc` nor memory, so the same word is fetched after it. -/
theorem State.fetchWord_idleTurn (s : State) : s.idleTurn.fetchWord = s.fetchWord := rfl

theorem State.finished_idleTurn {s : State} (hfin : s.finished) : s.idleTurn.finished := by
  rwa [State.finished, State.fetchWord_idleTurn]

end Sys2Proof.Machine
end

section
/-! Whole-machine rules: the statements about the invariant of reachable states, the model's stops, the faults and the
elements an instruction may change (10_state.md, 60_exceptions.md). -/

namespace Sys2Proof.Proofs

open Sys2Proof.Machine

/-- Settles O15: `step_inv`, which rests on `Effect.inv` over the instructions. -/
theorem stepKeepsTheInvariant : Obligations.StepKeepsTheInvariant := fun _ _ h hstep => step_inv h hstep

/-- Settles O14: the reset state lists no cell, stacks no address and has no fault. -/
theorem resetMeetsTheInvariant : Obligations.ResetMeetsTheInvariant :=
  ⟨State.wf_reset, by decide, by decide, fun h => absurd rfl h⟩

/-- Settles O16: a load stores bytes, which keeps memory canonical; a reset leads to the reset state but for its counter;
the other requests write no element the invariant constrains, a stop setting `running` to what it asks. -/
theorem hostRequestsKeepTheInvariant : Obligations.HostRequestsKeepTheInvariant := by
  rintro s ⟨hwf, hsp, hcode, hstopped⟩
  refine ⟨⟨hwf, hsp, hcode, fun _ => rfl⟩, resetMeetsTheInvariant, fun k => ⟨hwf, hsp, hcode, hstopped⟩,
    fun image t h => ?load⟩
  obtain ⟨-, rfl⟩ := hostLoad_next h
  exact ⟨Memory.wf_writeBytes _ _ hwf, hsp, hcode, hstopped⟩

/-- Settles O17: each end of a cycle answers a next state, and a request that is not honoured answers the state. -/
theorem stepAlwaysAnswersANextState : Obligations.StepAlwaysAnswersANextState := by
  intro s hsp
  by_cases hrun : s.running = true ∧ s.fault = 0
  · rcases Nat.lt_or_ge 0xFFE s.pc.toNat with hpc | hpc
    · exact ⟨_, step_of_fetchRange hrun.1 hrun.2 hpc⟩
    · rw [step_of_fetch hrun.1 hrun.2 hpc]
      exact exists_execFetched_next (s := s.sampleInputs.fetched) hsp
  · exact ⟨s, step_of_not_honoured hrun⟩

/-- Settles O18: the two instructions beyond the stack, every other instruction and state, and the two answers to a
load. -/
theorem modelStopsOnlyOnIllegalStackPointerOrLateLoad :
    Obligations.ModelStopsOnlyOnIllegalStackPointerOrLateLoad :=
  ⟨fun nnn _ hsp => exec_call_of_illegal nnn hsp, fun m _ hsp => exec_ret_of_illegal m hsp,
    fun _ _ h => exists_exec_next h, fun image _ hs => ⟨_, hostLoad_of_not_started image hs⟩, fun _ _ hs => if_pos hs⟩

/-- Settles O20: a state with a fault is the effect `raised`, whose condition is a row of the table. -/
theorem noOtherConditionFaults : Obligations.NoOtherConditionFaults := by
  intro i s t hfault hexec ht
  cases exec_effect hexec with
  | raised hwhen =>
    cases hwhen with
    | spriteMemory h => exact .inl ⟨rfl, _, _, _, rfl, h⟩
    | digits h => exact .inr (.inl ⟨rfl, _, rfl, h⟩)
    | store h => exact .inr (.inr (.inl ⟨rfl, _, .inl rfl, h⟩))
    | load h => exact .inr (.inr (.inl ⟨rfl, _, .inr rfl, h⟩))
    | call h => exact .inr (.inr (.inr (.inl ⟨rfl, _, rfl, h⟩)))
    | ret h => exact .inr (.inr (.inr (.inr (.inl ⟨rfl, _, rfl, h⟩))))
    | skp h => exact .inr (.inr (.inr (.inr (.inr (.inl ⟨rfl, _, .inl rfl, h⟩)))))
    | sknp h => exact .inr (.inr (.inr (.inr (.inr (.inl ⟨rfl, _, .inr rfl, h⟩)))))
    | spriteVideo h => exact .inr (.inr (.inr (.inr (.inr (.inr ⟨rfl, _, _, _, rfl, h⟩)))))
  | _ => exact absurd hfault ht

/-- Settles O21: of the effects that write registers, the flag setters and `DRW` are named; an assignment and a block
load that reach register 15 name it as their destination. -/
theorem flagRegisterChangesOnlyWhereNamed : Obligations.FlagRegisterChangesOnlyWhereNamed := by
  intro i s t hexec hne
  cases exec_effect hexec with
  | setRegThenFlag x r f h => exact .inl h
  | drw _ _ => exact .inr (.inl ⟨_, _, _, rfl⟩)
  | @setReg _ x b h =>
    obtain rfl : 15 = x := by_contra fun hx => hne (s.reg_setReg_of_ne b hx)
    obtain himm | hreg | hdt | hk := h
    · exact .inr (.inr (.inl himm))
    · exact .inr (.inr (.inr (.inl hreg)))
    · exact .inr (.inr (.inr (.inr (.inl hdt))))
    · exact .inr (.inr (.inr (.inr (.inr (.inl hk)))))
  | @loadRegs x =>
    have hle : 15 ≤ x := by_contra fun hx => hne ((s.reg_mapIdx x 15).trans (if_neg hx))
    obtain rfl : 15 = x := le_antisymm hle (Fin.le_last x)
    exact .inr (.inr (.inr (.inr (.inr (.inr rfl)))))
  | _ => exact absurd rfl hne

/-- Settles O22: the effects of `CLS` and `DRW` are the only ones that write `video`. -/
theorem onlyClsAndDrwWriteTheFramebuffer : Obligations.OnlyClsAndDrwWriteTheFramebuffer := by
  intro i s t hexec hne
  cases exec_effect hexec with
  | cls => exact .inl ⟨_, rfl⟩
  | drw _ _ => exact .inr ⟨_, _, _, rfl⟩
  | _ => exact absurd rfl hne

/-- Settles O23: the effects of `LD B` and `LD [I]` are the only ones that write memory, and a store leaves every address
outside its bytes alone. -/
theorem onlyStoredBytesOfMemoryChange : Obligations.OnlyStoredBytesOfMemoryChange := by
  intro i s t a hwf hexec hne
  cases exec_effect hexec with
  | @ldBcd x =>
    exact .inl ⟨x, rfl, by_contra fun ha => hne (State.read_storeAtIndex_outside hwf (length_bcdDigits _) ha)⟩
  | @storeRegs x =>
    exact .inr ⟨x, rfl, by_contra fun ha => hne (State.read_storeAtIndex_outside hwf (s.length_regsUpTo x) ha)⟩
  | _ => exact absurd rfl hne

/-- Settles O24: for each of the five elements, the effects that write it. -/
theorem specialRegistersChangeOnlyWhereNamed : Obligations.SpecialRegistersChangeOnlyWhereNamed := by
  intro i s t hexec
  refine ⟨fun hne => ?stack, fun hne => ?sp, fun hne => ?index, fun hne => ?delay, fun hne => ?sound⟩ <;>
    cases exec_effect hexec
  case stack.call => exact ⟨_, rfl⟩
  case sp.call => exact .inl ⟨_, rfl⟩
  case sp.ret => exact .inr ⟨_, rfl⟩
  case index.setIndex h => exact h
  case delay.ldDtVx => exact ⟨_, rfl⟩
  case sound.ldStVx => exact ⟨_, rfl⟩
  all_goals exact absurd rfl hne

/-- Settles O25: an instruction takes a fault, which writes `running` and `fault` alone, or keeps the elements of the
cycle. -/
theorem instructionsLeaveTheRunStateToFaults : Obligations.InstructionsLeaveTheRunStateToFaults := by
  intro i s t hexec
  obtain ⟨c, -, rfl⟩ | hkeep := exec_faultsOrKeeps hexec
  · exact ⟨rfl, rfl, rfl, rfl, rfl, rfl, .inr ⟨rfl, c.code_ne_zero⟩⟩
  · exact ⟨hkeep.opcode, hkeep.keys, hkeep.rnd, hkeep.cycle, hkeep.report, hkeep.started,
      .inl ⟨hkeep.running, hkeep.fault⟩⟩

/-- Settles O26: a skip, the key wait, the jumps and `RET` are the effects that write `pc`. -/
theorem programCounterChangesOnlyAsListed : Obligations.ProgramCounterChangesOnlyAsListed := by
  intro i s t hexec
  cases exec_effect hexec with
  | skip c h =>
    cases c with
    | false => exact .inl rfl
    | true => exact .inr (.inl ⟨rfl, h⟩)
  | keyWait h => exact .inr (.inr (.inl ⟨rfl, h, _, rfl⟩))
  | @jp nnn => exact .inr (.inr (.inr (.inl ⟨nnn, .inl rfl, toNat_zextAddr nnn⟩)))
  | @call nnn _ => exact .inr (.inr (.inr (.inl ⟨nnn, .inr rfl, toNat_zextAddr nnn⟩)))
  | @jpV0 nnn => exact .inr (.inr (.inr (.inr (.inl ⟨nnn, rfl, toNat_zextAddr_add_zextByte nnn (s.reg 0)⟩))))
  | @ret m k h => exact .inr (.inr (.inr (.inr (.inr ⟨m, k, rfl, h, rfl⟩))))
  | _ => exact .inl rfl

end Sys2Proof.Proofs
end

section
/-! The cycle and its requests: the statements about the step request, its instruction and its inputs (10_state.md R39 to
R41, 60_exceptions.md R200, 70_reset_and_hazards.md R246). -/

namespace Sys2Proof.Proofs

open Sys2Proof.Machine Sys2Proof.Claims

/-- Settles O1: `step_of_decoded`, and what the end of the cycle makes of the instruction's outcome. -/
theorem stepRunsTheDecodedInstruction : Obligations.StepRunsTheDecodedInstruction := by
  intro s i hrun hfault hpc hdec
  rw [step_of_decoded hrun hfault hpc hdec]
  cases exec i (AtInstruction s) with
  | next t => simp only [afterInstr, State.endCycle, ticked_eq_tick]
  | fault r => rfl
  | refused r => rfl

/-- Settles O4: a performed cycle counts one, and a request that is not honoured answers the state. -/
theorem stepRequestHonouredOnlyWhenRunning : Obligations.StepRequestHonouredOnlyWhenRunning := by
  refine ⟨fun s t hrun h => ?_, fun s hrun => step_of_not_honoured hrun⟩
  obtain ⟨-, -, hcycle⟩ := step_inputs hrun.1 hrun.2 h
  exact hcycle

/-- Settles O8: by induction on the number of cycles; after the first the core is a finished program in the same place,
with each timer one lower. -/
theorem idleLoopOnlyRunsTheTimersDown : Obligations.IdleLoopOnlyRunsTheTimersDown := by
  intro k
  induction k with
  | zero =>
    intro s hrun hfault _ _
    exact ⟨s, rfl, rfl, rfl, rfl, rfl, rfl, rfl, rfl, hrun, hfault, rfl, rfl, rfl⟩
  | succ k ih =>
    intro s hrun hfault hpc hfin
    obtain ⟨t, hrest, htpc, hv, hmem, hvideo, hindex, hstack, hsp, htrun, htfault, hdelay, hsound, hopcode⟩ :=
      ih s.idleTurn hrun hfault hpc (State.finished_idleTurn hfin)
    have hstep := step_of_finished hrun hfault hpc hfin
    refine ⟨t, (run_succ_of_step (M := core) hstep k).trans hrest, htpc, hv, hmem, hvideo, hindex, hstack, hsp, htrun,
      htfault, ?delay, ?sound, ?opcode⟩
    case delay => rw [hdelay, State.toNat_delayTimer_idleTurn, Nat.sub_sub, Nat.add_comm]
    case sound => rw [hsound, State.toNat_soundTimer_idleTurn, Nat.sub_sub, Nat.add_comm]
    case opcode => exact hopcode.trans (ite_self _)

/-- Settles O60: the inputs a cycle samples stay to its end, and no request lowers the counter they are drawn by. -/
theorem everyCycleDrawsItsOwnInputs : Obligations.EveryCycleDrawsItsOwnInputs := by
  refine ⟨fun s t hrun hfault h => step_inputs hrun hfault h, fun s =>
    ⟨rfl, rfl, rfl, fun k => ⟨rfl, rfl⟩, fun image t h => ?load⟩⟩
  obtain ⟨-, rfl⟩ := hostLoad_next h
  exact ⟨rfl, rfl⟩

end Sys2Proof.Proofs
end

section
/-! SUPPORT. The keys of a word as numbers, and the words each group of the dispatch does not list (30_encoding.md R73,
R76). -/

namespace Sys2Proof

/-! ### The keys of a word as numbers -/

theorem toNat_opField (w : Word) : (opField w).toNat = w.toNat / 0x1000 := by
  have hw := w.isLt
  rw [opField, BitVec.extractLsb'_toNat, Nat.shiftRight_eq_div_pow]
  omega

theorem toNat_kkField (w : Word) : (kkField w).toNat = w.toNat % 0x100 :=
  BitVec.extractLsb'_toNat 0 8 w

theorem toNat_nField (w : Word) : (nField w).toNat = w.toNat % 0x10 :=
  BitVec.extractLsb'_toNat 0 4 w

/-! ### The words a group does not list -/

theorem decodeGroup0_unknown_iff (w : Word) :
    (∀ i, decodeGroup0 w ≠ .ok i) ↔ (kkField w).toNat ∉ [0xE0, 0xEE] := by
  unfold decodeGroup0
  split <;> simp_all [BitVec.toNat_eq]

theorem decodeGroupE_unknown_iff (w : Word) :
    (∀ i, decodeGroupE w ≠ .ok i) ↔ (kkField w).toNat ∉ [0x9E, 0xA1] := by
  unfold decodeGroupE
  split <;> simp_all [BitVec.toNat_eq]

theorem decodeGroupF_unknown_iff (w : Word) :
    (∀ i, decodeGroupF w ≠ .ok i) ↔
      (kkField w).toNat ∉ [0x07, 0x0A, 0x15, 0x18, 0x1E, 0x29, 0x33, 0x55, 0x65] := by
  unfold decodeGroupF
  split <;> simp_all [BitVec.toNat_eq]

/-- Group 8 lists the keys 0 to 7 and 0xE, so the others of the 16 are these seven. -/
theorem decodeGroup8_unknown_iff (w : Word) :
    (∀ i, decodeGroup8 w ≠ .ok i) ↔ (nField w).toNat ∈ [0x8, 0x9, 0xA, 0xB, 0xC, 0xD, 0xF] := by
  have hn := (nField w).isLt
  unfold decodeGroup8
  split <;> simp_all [BitVec.toNat_eq]
  omega

/-- The groups 0, 8, E and F are the ones with a secondary key, and so with unknown opcodes (R73). -/
theorem decode_unknown_iff (w : Word) :
    (∀ i, decode w ≠ .ok i) ↔
      ((opField w).toNat = 0x0 ∧ ∀ i, decodeGroup0 w ≠ .ok i) ∨
      ((opField w).toNat = 0x8 ∧ ∀ i, decodeGroup8 w ≠ .ok i) ∨
      ((opField w).toNat = 0xE ∧ ∀ i, decodeGroupE w ≠ .ok i) ∨
      ((opField w).toNat = 0xF ∧ ∀ i, decodeGroupF w ≠ .ok i) := by
  unfold decode
  split
  case h_17 =>
    have hlisted := nibble_listed (opField w)
    simp_all
  all_goals simp [*]

end Sys2Proof
end

section
/-! Decoding: the statements about the encoder's and the decoder's words (30_encoding.md). -/

namespace Sys2Proof.Proofs

/-- Settles O10: the fields of the word the encoder builds are the keys and the operands of the instruction. -/
theorem decodeOfEncodeIsIdentity : Obligations.DecodeOfEncodeIsIdentity := decode_encode

/-- Settles O11: a word is rebuilt from its fields, all of which the decoder keeps. -/
theorem encodeOfDecodeIsIdentity : Obligations.EncodeOfDecodeIsIdentity := fun _ _ => encode_of_decode

/-- Settles O13: the unknown opcodes of the four groups with a secondary key, in numbers. -/
theorem unknownOpcodesAreExactlyThese : Obligations.UnknownOpcodesAreExactlyThese := by
  intro w
  rw [decode_unknown_iff, decodeGroup0_unknown_iff, decodeGroup8_unknown_iff, decodeGroupE_unknown_iff,
    decodeGroupF_unknown_iff, toNat_opField, toNat_kkField, toNat_nField]

/-- Settles O9: each number is that of the instruction's word. -/
theorem specWordsDecode : Obligations.SpecWordsDecode := by
  and_intros <;> exact decodes_of_toNat_encode rfl

end Sys2Proof.Proofs
end

section
/-! SUPPORT. The second draw of a sprite at one position: it covers the same pixels (43_display.md R174 (a)). -/

namespace Sys2Proof.Machine

open Sys2Proof.Claims

/-- A draw that answers a state without a fault passed both checks. -/
theorem drawn_of_exec_drw {x y : RegNum} {n : Nibble} {s t : State} (h : exec (.drw x y n) s = .next t)
    (ht : t.fault = 0) :
    ¬SpriteBeyondMemory s n ∧ (∀ L, Covered s x y n L → L ≤ 2047) ∧ t = s.drawn x y n := by
  cases exec_effect h with
  | @raised _ c _ => exact absurd ht c.code_ne_zero
  | drw hmem hvideo => exact ⟨hmem, hvideo, rfl⟩
  | setReg | setRegThenFlag | setIndex | skip =>
    rename_i hnamed
    simp [AssignsReg, AssignsRegAndFlag, AssignsIndex, Skips] at hnamed

section
variable {s : State} {x y : RegNum} {n : Nibble}
  (hx : ((s.drawn x y n).reg x).toNat % 64 = (s.reg x).toNat % 64)
  (hy : ((s.drawn x y n).reg y).toNat % 32 = (s.reg y).toNat % 32)
include hx hy

/-- A draw writes neither memory nor the index register, so at the same start the sprite covers the same pixels. -/
theorem covered_drawn_iff (L : Nat) : Covered (s.drawn x y n) x y n L ↔ Covered s x y n L := by
  unfold Covered
  rw [hx, hy]
  rfl

variable (hvideo : ∀ L, Covered s x y n L → L ≤ 2047)
include hvideo

theorem covered_drawn_le (L : Nat) (hcov : Covered (s.drawn x y n) x y n L) : L ≤ 2047 :=
  hvideo L ((covered_drawn_iff hx hy L).1 hcov)

/-- Each covered pixel is flipped twice and no other is flipped. -/
theorem State.video_drawn_drawn : ((s.drawn x y n).drawn x y n).video = s.video := by
  refine Video.ext_of_pixel fun L _ => ?_
  have hvideo' := covered_drawn_le hx hy hvideo
  by_cases hcov : Covered s x y n L
  · rw [State.pixel_drawn_of_covered hvideo' ((covered_drawn_iff hx hy L).2 hcov),
      State.pixel_drawn_of_covered hvideo hcov, Bool.not_not]
  · rw [State.pixel_drawn_of_not_covered hvideo' (mt (covered_drawn_iff hx hy L).1 hcov),
      State.pixel_drawn_of_not_covered hvideo hcov]

/-- The second draw meets a pixel that is on where the first turned one on. -/
theorem State.reg_drawn_drawn_flag_iff :
    ((s.drawn x y n).drawn x y n).reg 15 = 1 ↔ ∃ L, Covered s x y n L ∧ s.video.pixel L = false := by
  have hvideo' := covered_drawn_le hx hy hvideo
  constructor
  · intro hflag
    by_contra hnone
    have hoff : ∀ L, Covered (s.drawn x y n) x y n L → (s.drawn x y n).video.pixel L = false := fun L hcov => by
      have hcov' := (covered_drawn_iff hx hy L).1 hcov
      rw [State.pixel_drawn_of_covered hvideo hcov', Bool.not_eq_false']
      exact Bool.eq_true_of_not_eq_false fun hL => hnone ⟨L, hcov', hL⟩
    rw [State.reg_drawn_flag_of_no_collision hvideo' hoff] at hflag
    exact absurd hflag (by decide)
  · rintro ⟨L, hcov, hL⟩
    refine State.reg_drawn_flag_of_collision hvideo' ⟨L, (covered_drawn_iff hx hy L).2 hcov, ?_⟩
    rw [State.pixel_drawn_of_covered hvideo hcov, hL, Bool.not_false]

end

end Sys2Proof.Machine
end

section
/-! Instructions in sequence, and the read-out: a call and its return, a store and the load or fetch after it, a sprite
drawn twice (40_flow.md, 42_index_memory.md, 43_display.md). -/

namespace Sys2Proof.Proofs

open Sys2Proof.Machine

/-- Settles O29: the entry `RET` pops is the one `CALL` pushed, the address after the call. -/
theorem callThenReturnResumesAfterTheCall : Obligations.CallThenReturnResumesAfterTheCall := by
  intro nnn m s hroom
  obtain ⟨k, hk⟩ : ∃ k : Fin 16, s.sp.toNat = k.val := ⟨⟨s.sp.toNat, hroom⟩, rfl⟩
  have hpushed : (State.jump (zextAddr nnn) (State.push s.pc s)).sp.toNat = k.val + 1 :=
    hk ▸ State.push_sp_toNat hroom s.pc
  have hpc : (State.push s.pc s).stack[k] = s.pc := (State.stack_push hk s.pc k).trans (if_pos rfl)
  have hsp : s.sp + 1 - 1 = s.sp := BitVec.add_sub_cancel _ _
  exact ⟨_, _, exec_call_of_room nnn hroom, exec_ret_of_stacked m hpushed, hpc, hsp,
    congrArg₂ (fun pc sp => { s with pc := pc, sp := sp }) hpc hsp⟩

/-- Settles O48: the load reads each address the store wrote; in between only registers changed. -/
theorem storedRegistersLoadBack : Obligations.StoredRegistersLoadBack := by
  intro x s between hwf hfit
  obtain ⟨-, hstore⟩ := registersAreStored x
  obtain ⟨-, hload⟩ := registersAreLoaded x
  obtain ⟨t, hexec, hstored, -, honly⟩ := (hstore s).2 hfit hwf
  have hindex : t.index = s.index := (congrArg State.index honly :)
  have hea (j : Nat) : State.ea { t with v := between } j = s.ea j := congrArg (·.toNat + j) hindex
  obtain ⟨u, hexec', -, hloaded⟩ := (hload { t with v := between }).2 ((hea x.val).trans_le hfit)
  refine ⟨t, u, hexec, hexec', fun j hj => ?_⟩
  rw [hloaded, if_pos hj, hea]
  exact hstored j hj

/-- Settles O49: the bytes the store leaves at the following instruction are the ones the fetch joins. -/
theorem storedWordIsFetchedNext : Obligations.StoredWordIsFetchedNext := by
  intro x s hx hwf hindex hfit
  obtain ⟨-, hstore⟩ := registersAreStored x
  obtain ⟨t, hexec, hstored, -, honly⟩ := (hstore s).2 hfit hwf
  have hpc : t.pc = s.index := (congrArg State.pc honly).trans hindex.symm
  have hhigh : t.mem.read t.pc.toNat = s.reg 0 := hpc ▸ hstored 0 (Fin.zero_le x)
  have hlow : t.mem.read (t.pc.toNat + 1) = s.reg 1 := hpc ▸ hstored 1 hx
  exact ⟨t, hexec, by rw [State.fetchWord, hhigh, hlow, toNat_wordOfBytes]⟩

/-- Settles O50: pixel `(x, y)` is in row `y` and column `x`, the quotient and the remainder of its index. -/
theorem framebufferIsRowMajor : Obligations.FramebufferIsRowMajor := by
  intro s x y
  have hrow : (y.val * 64 + x.val) / 64 = y.val := by omega
  have hcol : (y.val * 64 + x.val) % 64 = x.val := by omega
  refine ⟨rfl, ?_⟩
  rw [Video.pixel, hrow, hcol, Video.row]
  simp

/-- Settles O53: the second draw covers the pixels of the first, so it passes the checks and flips them back. -/
theorem drawingTwiceRestoresTheFramebuffer : Obligations.DrawingTwiceRestoresTheFramebuffer := by
  intro x y n s t hfault h ht hx hy
  obtain ⟨hmem, hvideo, rfl⟩ := drawn_of_exec_drw h ht
  exact ⟨_, exec_drw_of_within hmem (covered_drawn_le hx hy hvideo), hfault, State.video_drawn_drawn hx hy hvideo,
    State.reg_drawn_drawn_flag_iff hx hy hvideo⟩

end Sys2Proof.Proofs
end
